-- ==== Sys2Proof/Word.lean ====
section
/-! DEFINITION. The word types of the block (00_scope.md R9, R10, R11). -/

namespace Sys2Proof

/-- One byte: the element of every address space the block reaches (20_memory.md R40, R47). -/
abbrev Byte := BitVec 8

/-- A 16-bit count, length or capacity (00_scope.md R10). -/
abbrev Word16 := BitVec 16

/-- A raw ADC sample or a sensor-time counter: 24 bits, always unsigned (00_scope.md R9). -/
abbrev Raw := BitVec 24

/-- A host command word (30_encoding.md R60). -/
abbrev CommandWord := BitVec 32

/-- The bit pattern of a binary32 value (00_scope.md R15, 41_compensation.md R123). -/
abbrev F32 := BitVec 32

/-- A 64-bit value: the fine temperature and the compensated integers (00_scope.md R9, 30_encoding.md R66). -/
abbrev Word64 := BitVec 64

end Sys2Proof
end

