-- ==== Sys2Proof/Machine/Flags.lean ====
section
/-! DEFINITION. The block has no condition codes or status flags (10_state.md R29). What stands in their place
is the status code each request returns (60_exceptions.md R180). -/

namespace Sys2Proof.Machine

/-- 0: success. -/
def statusOk : Byte := 0#8

/-- 1: operation-specific failure (bus I/O, precondition, buffer too small; for INIT, bus-open failure). -/
def statusFailed : Byte := 1#8

/-- 2: null or invalid handle; reserved and never returned (60_exceptions.md R181). -/
def statusBadHandle : Byte := 2#8

/-- 3: used before initialisation; for INIT, transport not linked. -/
def statusNotReady : Byte := 3#8

/-- 4: INIT only, chip-identity read failed or identity mismatch. -/
def statusIdentity : Byte := 4#8

/-- 5: INIT only, soft-reset write failed. -/
def statusReset : Byte := 5#8

/-- 6: INIT only, calibration read failed. -/
def statusCalib : Byte := 6#8

end Sys2Proof.Machine
end

