-- ==== Sys2Proof/Config.lean ====
section
/-! DEFINITION. The implementation parameters of 00_scope.md R8 as plain data, the calibration table they
may name (10_state.md R22), and the free values of the model. -/

namespace Sys2Proof

/-- The calibration table, 10_state.md R22: fourteen coefficients in the order and with the widths of its
table. A field holds the coefficient's bits. Its signedness is in the coefficient readers of
Machine/Operands.lean. -/
structure Calib where
  t1 : BitVec 16
  t2 : BitVec 16
  t3 : BitVec 8
  p1 : BitVec 16
  p2 : BitVec 16
  p3 : BitVec 8
  p4 : BitVec 8
  p5 : BitVec 16
  p6 : BitVec 16
  p7 : BitVec 8
  p8 : BitVec 8
  p9 : BitVec 16
  p10 : BitVec 8
  p11 : BitVec 8
deriving DecidableEq, Repr

/-- `P_COMBINED` (00_scope.md R8): how the header 0x94 is decoded. -/
inductive Combined
  | split
  | skip1
deriving DecidableEq, Repr

/-- `P_PD5_FORM` (00_scope.md R8): the form of the pressure term c5 of 41_compensation.md R122. -/
inductive Pd5Form
  | direct
  | div10
deriving DecidableEq, Repr

/-- The first argument of `P_COMP_PRECOND` (41_compensation.md R126). -/
inductive CompKind
  | temp
  | press
deriving DecidableEq, Repr

/-- One point of the domain of `P_COMP_PRECOND` (41_compensation.md R126). -/
structure PrecondCase where
  kind : CompKind
  table : Calib
  raw : Raw
deriving DecidableEq, Repr

/-- The parameters of 00_scope.md R8, one field each. They are fixed configuration: no operation changes
them (10_state.md R31). DESIGN CHOICE (safe), log entry 1: they are carried in the state, so that a statement
over every state is one over every parameter set. `precondFails` lists the points where `P_COMP_PRECOND` is
false (log entry 12). -/
structure Params where
  linked : Bool
  chipIdReg : Byte
  chipId : Byte
  cmdReg : Byte
  cmdSoftReset : Byte
  resetDelayMs : Nat
  calibReg : Byte
  dataReg : Byte
  fifoLenReg : Byte
  fifoLenMask : Word16
  fifoDataReg : Byte
  hdrTime : Byte
  hdrPress : Byte
  hdrTemp : Byte
  hdrTempPress : Byte
  hdrEmpty : Byte
  hdrCfgErr : Byte
  hdrCfgChg : Byte
  combined : Combined
  pd5Form : Pd5Form
  precondFails : List PrecondCase
deriving DecidableEq, Repr

/-- `P_RESET_DELAY_MS` (00_scope.md R8): OPEN, so a free constant (log entry 11). -/
opaque Config.resetDelayMs : Nat

/-- The `k`-th unspecified byte a failed FIFO burst read leaves in the host output byte buffer
(42_fifo.md R153: "a model writes a draw, never a chosen value"), log entry 10. -/
opaque Config.freeByte : Nat → Byte

/-- `P_FIFO_DEPTH` (00_scope.md R8): informative, no rule reads it (90_conflicts.md C11). -/
def Config.fifoDepth : Nat := 512

end Sys2Proof
end

