-- ==== Sys2Proof/Syntax.lean ====
section
/-! DEFINITION. The instructions: one constructor per row of spec/opcode_table.json. The first seven are host
commands (30_encoding.md R62); the other seven are the frames of the FIFO byte stream that FIFO_PARSE decodes
(30_encoding.md R68, R69), each with its payload as operand (log entry 7). -/

namespace Sys2Proof

inductive Instr
  /-- 40_init_calibration.md R100 -/
  | init
  /-- 40_init_calibration.md R105 -/
  | deinit
  /-- 41_compensation.md R124 -/
  | compTemp (raw : Raw)
  /-- 41_compensation.md R127 -/
  | compPress (raw : Raw)
  /-- 41_compensation.md R130 -/
  | readTp
  /-- 42_fifo.md R150; `cap` is the byte capacity of the host output byte buffer -/
  | readFifo (cap : Word16)
  /-- 42_fifo.md R156; `cap` is the frame capacity, `payload` becomes the host input buffer -/
  | fifoParse (cap : Word16) (payload : List Byte)
  /-- 42_fifo.md R163 -/
  | hdrEmpty
  /-- 42_fifo.md R163 -/
  | hdrCfgErr
  /-- 42_fifo.md R159 -/
  | hdrTime (counter : Raw)
  /-- 42_fifo.md R161 -/
  | hdrPress (raw : Raw)
  /-- 42_fifo.md R160 -/
  | hdrTemp (raw : Raw)
  /-- 42_fifo.md R162 -/
  | hdrTempPress (rawT rawP : Raw)
  /-- 42_fifo.md R164 -/
  | hdrOther (header : Byte)
deriving DecidableEq, Repr

/-- The host commands of 30_encoding.md R62, as opposed to FIFO frames. -/
def Instr.isCommand : Instr → Bool
  | .init => true
  | .deinit => true
  | .compTemp _ => true
  | .compPress _ => true
  | .readTp => true
  | .readFifo _ => true
  | .fifoParse _ _ => true
  | .hdrEmpty => false
  | .hdrCfgErr => false
  | .hdrTime _ => false
  | .hdrPress _ => false
  | .hdrTemp _ => false
  | .hdrTempPress _ _ => false
  | .hdrOther _ => false

end Sys2Proof
end

