-- ==== Sys2Proof/WellFormed.lean ====
section
/-! DEFINITION. Which terms of `Instr` have an encoding, under a parameter set. -/

namespace Sys2Proof

/-- The longest payload a FIFO_PARSE request may carry (00_scope.md R10, 30_encoding.md R64 (e)). -/
def maxPayload : Nat := 65535

/-- The seven header values of 00_scope.md R8. -/
def Params.headers (p : Params) : List Byte :=
  [p.hdrTime, p.hdrPress, p.hdrTemp, p.hdrTempPress, p.hdrEmpty, p.hdrCfgErr, p.hdrCfgChg]

/-- "The seven header values must be pairwise distinct" (00_scope.md R8). -/
def Params.headersDistinct (p : Params) : Bool := decide p.headers.Nodup

/-- The header bytes that open a frame or stop the scan (30_encoding.md R68): every other byte is an "other"
byte, `HDR_CFG_CHG` among them, and `HDR_TEMP_PRESS` too under `skip1`. -/
def Params.namedHeader (p : Params) (h : Byte) : Bool :=
  h == p.hdrEmpty || h == p.hdrCfgErr || h == p.hdrTime || h == p.hdrPress || h == p.hdrTemp
    || (h == p.hdrTempPress && p.combined == .split)

/-- The operand checks: a payload is at most 65535 bytes (30_encoding.md R64 (e)); the combined frame exists
under `split` only, and an "other" byte is none of the named headers (30_encoding.md R68). -/
def Instr.wf (p : Params) : Instr → Bool
  | .init => true
  | .deinit => true
  | .compTemp _ => true
  | .compPress _ => true
  | .readTp => true
  | .readFifo _ => true
  | .fifoParse _ payload => decide (payload.length ≤ maxPayload)
  | .hdrEmpty => true
  | .hdrCfgErr => true
  | .hdrTime _ => true
  | .hdrPress _ => true
  | .hdrTemp _ => true
  | .hdrTempPress _ _ => p.combined == .split
  | .hdrOther h => !p.namedHeader h

end Sys2Proof
end

