-- ==== Sys2Proof/Decode.lean ====
section
/-! DEFINITION. Decoding of host requests (30_encoding.md R60 to R65) and of FIFO frames (R68 to R72), total
on any bits and rejecting by name; the encoder beside it; the default parameters of 00_scope.md R8; and the
byte assembly the decoders use. -/

namespace Sys2Proof

/-- The defaults of 00_scope.md R8 (values marked GK there: PRESUMED by the spec, unsafe, log entry 2).
`P_RESET_DELAY_MS` is OPEN (log entry 11); `P_COMP_PRECOND` is always true. -/
def defaultParams : Params where
  linked := true
  chipIdReg := 0x00#8
  chipId := 0x50#8
  cmdReg := 0x7E#8
  cmdSoftReset := 0xB6#8
  resetDelayMs := Config.resetDelayMs
  calibReg := 0x31#8
  dataReg := 0x04#8
  fifoLenReg := 0x12#8
  fifoLenMask := 0x01FF#16
  fifoDataReg := 0x14#8
  hdrTime := 0xA0#8
  hdrPress := 0x84#8
  hdrTemp := 0x90#8
  hdrTempPress := 0x94#8
  hdrEmpty := 0x80#8
  hdrCfgErr := 0x44#8
  hdrCfgChg := 0x48#8
  combined := .split
  pd5Form := .direct
  precondFails := []

/-- Little-endian assembly of two bytes (00_scope.md R11, 20_memory.md R46). -/
def le16 (b0 b1 : Byte) : Word16 := b1 ++ b0

/-- Little-endian assembly of three bytes: `b0 | b1 << 8 | b2 << 16` (30_encoding.md R72). -/
def le24 (b0 b1 b2 : Byte) : Raw := b2 ++ b1 ++ b0

/-- Byte `k` of a 24-bit value, byte 0 the least significant. -/
def byteOf (v : Raw) (k : Nat) : Byte := v.extractLsb' (8 * k) 8

/-- The three bytes of a 24-bit value in ascending address order (30_encoding.md R69). -/
def bytes24 (v : Raw) : List Byte := [byteOf v 0, byteOf v 1, byteOf v 2]

/-- Why some bits are no instruction. The first four are the refusals of 30_encoding.md R64. The last two are
of the frame decoder: no byte at all, and a frame cut off by the end of the bytes (42_fifo.md R158). -/
inductive DecodeError
  /-- R64 (a): the opcode is not in the table of R62 -/
  | reservedOpcode (op : Byte)
  /-- R64 (b), (c): a bit the format requires to be zero is not -/
  | reservedBits
  /-- R64 (d): a payload with an opcode other than FIFO_PARSE -/
  | strayPayload
  /-- R64 (e): a payload longer than 65535 bytes -/
  | payloadTooLong
  /-- no header byte to decode -/
  | noHeader
  /-- the frame's payload does not fit in the bytes -/
  | frameCut
deriving DecidableEq, Repr

/-! ### Host commands -/

/-- `w[31:24]` (30_encoding.md R61). -/
def opcodeOf (w : CommandWord) : Byte := w.extractLsb' 24 8

/-- `w[23:0]` (format R, 30_encoding.md R63). -/
def rawOf (w : CommandWord) : Raw := w.extractLsb' 0 24

/-- `w[23:16]` (format C, 30_encoding.md R61). -/
def midOf (w : CommandWord) : Byte := w.extractLsb' 16 8

/-- `w[15:0]` (format C, 30_encoding.md R63). -/
def capOf (w : CommandWord) : Word16 := w.extractLsb' 0 16

/-- Format Z: bits 23:0 must be zero (30_encoding.md R61). -/
def formZ (w : CommandWord) (i : Instr) : Except DecodeError Instr :=
  if rawOf w = 0#24 then .ok i else .error .reservedBits

/-- Format C: bits 23:16 must be zero (30_encoding.md R61). -/
def formC (w : CommandWord) (i : Instr) : Except DecodeError Instr :=
  if midOf w = 0#8 then .ok i else .error .reservedBits

/-- The opcode map of 30_encoding.md R62. -/
def decodeWord (w : CommandWord) (payload : List Byte) : Except DecodeError Instr :=
  if opcodeOf w = 0x01#8 then formZ w .init
  else if opcodeOf w = 0x02#8 then formZ w .deinit
  else if opcodeOf w = 0x10#8 then .ok (.compTemp (rawOf w))
  else if opcodeOf w = 0x11#8 then .ok (.compPress (rawOf w))
  else if opcodeOf w = 0x12#8 then formZ w .readTp
  else if opcodeOf w = 0x20#8 then formC w (.readFifo (capOf w))
  else if opcodeOf w = 0x21#8 then formC w (.fifoParse (capOf w) payload)
  else .error (.reservedOpcode (opcodeOf w))

/-- Whether the payload that came with a request is one its opcode allows (30_encoding.md R64 (d), (e)). A
request without a payload is one with the empty payload (DEDUCED, log entry 16). -/
def checkPayload (w : CommandWord) (payload : List Byte) : Except DecodeError Unit :=
  if opcodeOf w = 0x21#8 then
    if payload.length ≤ maxPayload then .ok () else .error .payloadTooLong
  else if payload = [] then .ok () else .error .strayPayload

/-- A request, word and payload (30_encoding.md R60, R64, R65). -/
def decodeRequest (w : CommandWord) (payload : List Byte) : Except DecodeError Instr :=
  match decodeWord w payload with
  | .error e => .error e
  | .ok i =>
    match checkPayload w payload with
    | .error e => .error e
    | .ok _ => .ok i

/-! ### FIFO frames -/

/-- The length of the frame a header byte opens (30_encoding.md R68, R71); a stop marker counts as itself. -/
def frameLength (p : Params) (h : Byte) : Nat :=
  if h = p.hdrEmpty ∨ h = p.hdrCfgErr then 1
  else if h = p.hdrTime ∨ h = p.hdrPress ∨ h = p.hdrTemp then 4
  else if h = p.hdrTempPress ∧ p.combined = .split then 7
  else 1

/-- A frame whose payload is one 24-bit field (30_encoding.md R69). -/
def oneField (mk : Raw → Instr) : List Byte → Except DecodeError Instr
  | b0 :: b1 :: b2 :: _ => .ok (mk (le24 b0 b1 b2))
  | _ => .error .frameCut

/-- A frame whose payload is two 24-bit fields, temperature first (30_encoding.md R69). -/
def twoFields (mk : Raw → Raw → Instr) : List Byte → Except DecodeError Instr
  | t0 :: t1 :: t2 :: q0 :: q1 :: q2 :: _ => .ok (mk (le24 t0 t1 t2) (le24 q0 q1 q2))
  | _ => .error .frameCut

/-- The frame that opens a byte stream: the whole header byte is compared, in the order of 30_encoding.md R68. -/
def decodeFrame (p : Params) : List Byte → Except DecodeError Instr
  | [] => .error .noHeader
  | h :: rest =>
    if h = p.hdrEmpty then .ok .hdrEmpty
    else if h = p.hdrCfgErr then .ok .hdrCfgErr
    else if h = p.hdrTime then oneField .hdrTime rest
    else if h = p.hdrPress then oneField .hdrPress rest
    else if h = p.hdrTemp then oneField .hdrTemp rest
    else if h = p.hdrTempPress ∧ p.combined = .split then twoFields .hdrTempPress rest
    else .ok (.hdrOther h)

/-! ### The encoder -/

/-- The two shapes an instruction's bits take: a host request, or the bytes of a FIFO frame. -/
inductive Encoded
  | request (word : CommandWord) (payload : List Byte)
  | frame (bytes : List Byte)
deriving DecidableEq, Repr

/-- A format R word (30_encoding.md R61). -/
def wordR (op : Byte) (raw : Raw) : CommandWord := op ++ raw

/-- A format C word (30_encoding.md R61). -/
def wordC (op : Byte) (cap : Word16) : CommandWord := op ++ (0#8 ++ cap : BitVec 24)

/-- The bits of an instruction (30_encoding.md R61, R62 for commands; R68, R69 for frames). -/
def encode (p : Params) : Instr → Encoded
  | .init => .request (wordR 0x01#8 0#24) []
  | .deinit => .request (wordR 0x02#8 0#24) []
  | .compTemp raw => .request (wordR 0x10#8 raw) []
  | .compPress raw => .request (wordR 0x11#8 raw) []
  | .readTp => .request (wordR 0x12#8 0#24) []
  | .readFifo cap => .request (wordC 0x20#8 cap) []
  | .fifoParse cap payload => .request (wordC 0x21#8 cap) payload
  | .hdrEmpty => .frame [p.hdrEmpty]
  | .hdrCfgErr => .frame [p.hdrCfgErr]
  | .hdrTime counter => .frame (p.hdrTime :: bytes24 counter)
  | .hdrPress raw => .frame (p.hdrPress :: bytes24 raw)
  | .hdrTemp raw => .frame (p.hdrTemp :: bytes24 raw)
  | .hdrTempPress rawT rawP => .frame (p.hdrTempPress :: (bytes24 rawT ++ bytes24 rawP))
  | .hdrOther h => .frame [h]

/-- The decoder that fits the shape. -/
def decode (p : Params) : Encoded → Except DecodeError Instr
  | .request w payload => decodeRequest w payload
  | .frame bytes => decodeFrame p bytes

/-! ### The opcode table's numbering of bits -/

/-- The longest frame, the combined one (30_encoding.md R69). -/
def longestFrame : Nat := 7

/-- The low bytes of a number, byte 0 first. -/
def bytesOfNat (n w : Nat) : List Byte :=
  (List.range n).map fun k => BitVec.ofNat 8 (w >>> (8 * k))

/-- What the decoder gives for a row of spec/opcode_table.json: a row of 32 bits is a command word (its payload
empty), any other row a FIFO frame that begins with the bytes of `w`, the operand bytes above them zero. The
parameters are the defaults. -/
def decodeTableWord (nbits w : Nat) : Option Instr :=
  let r :=
    if nbits = 32 then decodeRequest (BitVec.ofNat 32 w) []
    else decodeFrame defaultParams (bytesOfNat longestFrame (w % 2 ^ nbits))
  match r with
  | .ok i => some i
  | .error _ => none

end Sys2Proof
end

