-- ==== Sys2Proof/Machine/Operands.lean ====
section
/-! DEFINITION. The operand forms: the 64-bit arithmetic primitives (00_scope.md R12), the coefficients as exact
integers (10_state.md R22), the packed calibration table (30_encoding.md R73) and the FIFO length (R75). -/

namespace Sys2Proof.Machine

/-! ### 64-bit arithmetic -/

/-- `wrap64(v)`: the signed 64-bit value congruent to `v` (00_scope.md R12). -/
def wrap64 (v : Int) : Int := v.bmod (2 ^ 64)

/-- `u64(v)` (00_scope.md R12). -/
def u64 (v : Int) : Nat := (v % 2 ^ 64).toNat

/-- `a *w b` (00_scope.md R12). -/
def mulW (a b : Int) : Int := wrap64 (a * b)

/-- `a +w b` (00_scope.md R12). -/
def addW (a b : Int) : Int := wrap64 (a + b)

/-- `tdiv(a, b)`: division rounded toward zero (00_scope.md R12). -/
def tdivZ (a b : Int) : Int := a.tdiv b

/-- `udiv(a, b)`: the floor of the quotient of two naturals (00_scope.md R12). -/
def udivN (a b : Nat) : Nat := a / b

/-! ### Coefficients: unsigned ones zero-extended, signed ones sign-extended (10_state.md R22, 41_compensation.md R132) -/

def t1Z (t : Calib) : Int := t.t1.toNat
def t2Z (t : Calib) : Int := t.t2.toNat
def t3Z (t : Calib) : Int := t.t3.toInt
def p1Z (t : Calib) : Int := t.p1.toInt
def p2Z (t : Calib) : Int := t.p2.toInt
def p3Z (t : Calib) : Int := t.p3.toInt
def p4Z (t : Calib) : Int := t.p4.toInt
def p5Z (t : Calib) : Int := t.p5.toNat
def p6Z (t : Calib) : Int := t.p6.toNat
def p7Z (t : Calib) : Int := t.p7.toInt
def p8Z (t : Calib) : Int := t.p8.toInt
def p9Z (t : Calib) : Int := t.p9.toInt
def p10Z (t : Calib) : Int := t.p10.toInt
def p11Z (t : Calib) : Int := t.p11.toInt

/-! ### The packed calibration table -/

/-- `CALIB_LEN` (10_state.md R24). -/
def calibLen : Nat := 21

/-- Byte `k` of a byte sequence. The block reads positions inside the sequence only (20_memory.md R44). -/
def byteAt (c : List Byte) (k : Nat) : Byte := c.getD k 0#8

/-- The little-endian 16-bit field at position `k`. -/
def half (c : List Byte) (k : Nat) : Word16 := le16 (byteAt c k) (byteAt c (k + 1))

/-- The little-endian 24-bit field at position `k` (30_encoding.md R72). -/
def rawAt (c : List Byte) (k : Nat) : Raw := le24 (byteAt c k) (byteAt c (k + 1)) (byteAt c (k + 2))

/-- `Unpack(c)` (30_encoding.md R73, 40_init_calibration.md R102). -/
def unpack (c : List Byte) : Calib where
  t1 := half c 0
  t2 := half c 2
  t3 := byteAt c 4
  p1 := half c 5
  p2 := half c 7
  p3 := byteAt c 9
  p4 := byteAt c 10
  p5 := half c 11
  p6 := half c 13
  p7 := byteAt c 15
  p8 := byteAt c 16
  p9 := half c 17
  p10 := byteAt c 19
  p11 := byteAt c 20

/-- The two bytes of a 16-bit field in ascending order. -/
def bytes16 (v : Word16) : List Byte := [v.extractLsb' 0 8, v.extractLsb' 8 8]

/-- `Pack(t)` (40_init_calibration.md R104), a law for testing: no operation calls it. -/
def pack (t : Calib) : List Byte :=
  bytes16 t.t1 ++ bytes16 t.t2 ++ [t.t3] ++ bytes16 t.p1 ++ bytes16 t.p2 ++ [t.p3, t.p4] ++ bytes16 t.p5
    ++ bytes16 t.p6 ++ [t.p7, t.p8] ++ bytes16 t.p9 ++ [t.p10, t.p11]

/-! ### The FIFO length -/

/-- `L = (l0 | l1 << 8) & P_FIFO_LEN_MASK` (30_encoding.md R75). -/
def fifoLength (p : Params) (l : List Byte) : Word16 := half l 0 &&& p.fifoLenMask

end Sys2Proof.Machine
end

