-- ==== Sys2Proof/Machine/State.lean ====
section
/-! DEFINITION. The state of the block, what it exchanges with the host and the bus, its faults and refusals,
and its reset value. -/

namespace Sys2Proof.Machine

/-- The three frame types of 10_state.md R30. -/
inductive FrameType
  | temperature
  | pressure
  | sensorTime
deriving DecidableEq, Repr

/-- A frame, 10_state.md R30. `data` is absent in a SENSORTIME frame. -/
structure Frame where
  type : FrameType
  raw : Raw
  data : Option F32
deriving DecidableEq, Repr

/-- The FIFO decoder's transient values while one FIFO_PARSE runs (10_state.md R28) with the `len` and `cap` of
its request (30_encoding.md R63). -/
structure Scan where
  len : Nat
  cap : Nat
  cursor : Nat
  count : Nat
deriving DecidableEq, Repr

/-- A host request (30_encoding.md R60). -/
structure Request where
  word : CommandWord
  payload : List Byte
deriving DecidableEq, Repr

/-- One answer of the bus oracle (20_memory.md R44): `ok` answers an open, a close or a write, `bytes` a read,
`ioError` any transaction. -/
inductive BusAnswer
  | ok
  | bytes (bs : List Byte)
  | ioError
deriving DecidableEq, Repr

/-- What the block does towards the sensor: the four transactions of 20_memory.md R44 and `wait_ms`
(00_scope.md R13). -/
inductive BusEvent
  | busOpen
  | busClose
  | busRead (reg : Byte) (n : Nat)
  | busWrite (reg : Byte) (bs : List Byte)
  | waitMs (ms : Nat)
deriving DecidableEq, Repr

/-- The results of 30_encoding.md R66. The bytes of READ_FIFO and the frames of FIFO_PARSE stand in the host's
buffers (`State.outBuf`, `State.frames`), log entry 17. -/
inductive Results
  | none
  | temperature (t100 : Word64) (tempC : F32)
  | pressure (p100 : Word64) (pressPa : F32)
  | both (rawT rawP : Raw) (t100 : Word64) (tempC : F32) (p100 : Word64) (pressPa : F32)
  | length (length : Word16)
  | frameCount (count : Word16)
deriving DecidableEq, Repr

/-- The response to a request: an 8-bit status code and the results (30_encoding.md R60). -/
structure Response where
  status : Byte
  results : Results
deriving DecidableEq, Repr

/-- The state. The first three fields are the block's own (10_state.md R20); `scan` is the transient state of a
running FIFO_PARSE (R28); the next three are the host's buffers (20_memory.md R40), keyed by index, rising,
an index not listed holding no value the block knows (log entry 9). The rest is the interface as plain data:
the host's requests and the bus's answers to come (log entries 3 and 5), the transactions and responses made so
far, oldest first (log entry 14), the count of free bytes drawn (log entry 10) and the parameters (log entry 1). -/
structure State where
  inited : Bool
  calib : Option Calib
  tFine : Word64
  scan : Option Scan
  inBuf : List Host.Cell
  outBuf : List Host.Cell
  frames : List (Nat × Frame)
  requests : List Request
  bus : List BusAnswer
  trace : List BusEvent
  responses : List Response
  draws : Nat
  params : Params
deriving DecidableEq, Repr

/-- Why the machine stops with a fault. -/
inductive Fault
  /-- A bus transaction has no answer to come: it never returns, and the block is stuck (60_exceptions.md
  R196). Raised by every bus transaction. Safe. -/
  | busNeverAnswers
  /-- A read of the calibration table while it is absent (10_state.md R23: "a read of `absent` is a fault").
  Raised by the operations that compensate, in states no run reaches. Safe. -/
  | calibAbsent
  /-- `MemRead` outside the host input buffer (20_memory.md R41). Raised by the fetch of a frame, in states no
  run reaches. Safe. -/
  | memReadPastEnd
  /-- A FIFO frame executed while no FIFO_PARSE runs: a frame exists only inside a scan (10_state.md R28,
  log entry 8). Raised by the seven frame instructions. Safe. -/
  | noScan
deriving DecidableEq, Repr

/-- Why the machine gives a request no meaning (00_scope.md R14). -/
inductive Refusal
  /-- The instruction is not modelled. Raised by `exec`'s arms alone. Safe. -/
  | notModelled (mnemonic : String)
  /-- The request is outside the block's encoding (30_encoding.md R64). Raised by the fetch. Safe. -/
  | encoding (reason : DecodeError)
  /-- Two of the seven header values are equal (00_scope.md R8). Raised by the fetch. Safe. -/
  | equalHeaders
  /-- The bus gave an answer its contract excludes (20_memory.md R44), such as a read answered by a wrong number
  of bytes (log entry 4). Raised by every bus transaction. Safe. -/
  | busAnswerShape
deriving DecidableEq, Repr

/-- What a step, and an instruction's meaning, answers. -/
abbrev Result := Host.Outcome State Fault Refusal

/-- The machine right after reset (10_state.md R33, 70_reset_and_hazards.md R200): uninitialised, no table, fine
temperature 0, no scan; nothing listed in the buffers, no request and no bus answer to come, nothing done yet
(DESIGN CHOICE, unsafe, log entries 3, 5, 9, 10 and 14); the default parameters (00_scope.md R8). -/
def State.reset : State where
  inited := false
  calib := none
  tFine := 0#64
  scan := none
  inBuf := []
  outBuf := []
  frames := []
  requests := []
  bus := []
  trace := []
  responses := []
  draws := 0
  params := defaultParams

end Sys2Proof.Machine
end

