-- ==== Sys2Proof/Machine/Ops.lean ====
section
/-! DEFINITION. The named operations over buffers and state: the cells of a buffer, the updates of State, the
completion of a request and its one failure operation (60_exceptions.md R185: the block has no traps), the bus
transactions, the scan of FIFO_PARSE and the fetch. -/

namespace Sys2Proof.Machine

/-! ### Buffers: lists of (index, element), indexes strictly rising, an index not listed holding no known value -/

/-- The element at index `a`, if one is listed. -/
def Memory.read {α : Type} (m : List (Nat × α)) (a : Nat) : Option α :=
  match m with
  | [] => none
  | (k, v) :: rest => if k = a then some v else Memory.read rest a

/-- Write one element, keeping the indexes rising. -/
def Memory.write {α : Type} (m : List (Nat × α)) (a : Nat) (v : α) : List (Nat × α) :=
  match m with
  | [] => [(a, v)]
  | (k, w) :: rest =>
    if a < k then (a, v) :: (k, w) :: rest
    else if a = k then (a, v) :: rest
    else (k, w) :: Memory.write rest a v

/-- Write elements at `a`, `a + 1`, ... in order. -/
def Memory.writeAll {α : Type} (m : List (Nat × α)) (a : Nat) (vs : List α) : List (Nat × α) :=
  match vs with
  | [] => m
  | v :: rest => Memory.writeAll (Memory.write m a v) (a + 1) rest

/-- Every listed index is at least `lo`, and they rise strictly. -/
def Memory.risingFrom {α : Type} (lo : Nat) (m : List (Nat × α)) : Bool :=
  match m with
  | [] => true
  | (k, _) :: rest => decide (lo ≤ k) && Memory.risingFrom (k + 1) rest

/-- The canonical form: indexes strictly rising. (An index not listed holds no value, so no entry can equal what an
unlisted one reads as.) -/
def Memory.wf {α : Type} (m : List (Nat × α)) : Bool := Memory.risingFrom 0 m

/-- A buffer that holds exactly the given elements from index `a` on. -/
def Memory.ofList {α : Type} (a : Nat) (vs : List α) : List (Nat × α) :=
  match vs with
  | [] => []
  | v :: rest => (a, v) :: Memory.ofList (a + 1) rest

/-- The `n` elements from index `a` on, if all are listed. -/
def Memory.readAll {α : Type} (m : List (Nat × α)) (a n : Nat) : Option (List α) :=
  match n with
  | 0 => some []
  | n + 1 =>
    match Memory.read m a, Memory.readAll m (a + 1) n with
    | some v, some vs => some (v :: vs)
    | _, _ => none

/-- `MemRead(a, n)` over a host input buffer of `len` bytes (20_memory.md R41): none outside it. -/
def memRead (m : List Host.Cell) (len a n : Nat) : Option (List Byte) :=
  if a + n ≤ len then Memory.readAll m a n else none

/-- The codes of the frame types, for a reader that wants numbers (30_encoding.md R74). -/
def frameTypeCode : FrameType → Nat
  | .temperature => 0
  | .pressure => 1
  | .sensorTime => 2

/-! ### Updates of State -/

/-- The host's next request is taken off the queue. -/
def State.accept (s : State) (rest : List Request) : State := { s with requests := rest }

/-- A bus transaction: recorded, its answer taken off the queue. -/
def State.issue (s : State) (ev : BusEvent) (rest : List BusAnswer) : State :=
  { s with bus := rest, trace := s.trace ++ [ev] }

/-- `wait_ms(P_RESET_DELAY_MS)` (00_scope.md R13, 70_reset_and_hazards.md R207): recorded, no other effect. -/
def State.waited (s : State) : State :=
  { s with trace := s.trace ++ [.waitMs s.params.resetDelayMs] }

/-- The response to the request is given (30_encoding.md R60). -/
def State.respond (s : State) (status : Byte) (results : Results) : State :=
  { s with responses := s.responses ++ [⟨status, results⟩] }

/-- INIT's state write (40_init_calibration.md R103). -/
def State.initialise (s : State) (table : Calib) : State :=
  { s with calib := some table, inited := true }

/-- DEINIT's state write (40_init_calibration.md R106). -/
def State.deinitialise (s : State) : State := { s with inited := false }

/-- `S.t_fine <- tf` (10_state.md R25). -/
def State.setTFine (s : State) (tf : Int) : State := { s with tFine := BitVec.ofInt 64 tf }

/-- Bytes read from the FIFO go to the host output byte buffer from index 0 on (20_memory.md R43). -/
def State.fillOut (s : State) (bs : List Byte) : State :=
  { s with outBuf := Memory.writeAll s.outBuf 0 bs }

/-- The free bytes drawn next. -/
def freeBytes (draws n : Nat) : List Byte := (List.range n).map fun k => Config.freeByte (draws + k)

/-- `Out[0 .. cap-1] <- unspecified` (42_fifo.md R153): every byte a fresh draw (log entry 10). -/
def State.spoilOut (s : State) (cap : Nat) : State :=
  { s with
    outBuf := Memory.writeAll s.outBuf 0 (freeBytes s.draws cap)
    draws := s.draws + cap }

/-- FIFO_PARSE begins (42_fifo.md R157): the payload becomes the host input buffer (20_memory.md R41), cursor
and count are 0 (10_state.md R28). -/
def State.beginScan (s : State) (cap : Nat) (payload : List Byte) : State :=
  { s with
    inBuf := Memory.ofList 0 payload
    scan := some ⟨payload.length, cap, 0, 0⟩ }

/-- The scan goes on at another cursor. -/
def State.moveScan (s : State) (sc : Scan) (by_ : Nat) : State :=
  { s with scan := some { sc with cursor := sc.cursor + by_ } }

/-- `OutWrite(n, frame); n <- n + 1; i <- i + by_` (42_fifo.md R157). -/
def State.emit (s : State) (sc : Scan) (by_ : Nat) (f : Frame) : State :=
  { s with
    frames := Memory.write s.frames sc.count f
    scan := some { sc with cursor := sc.cursor + by_, count := sc.count + 1 } }

/-- The scan exits: status 0 and the frame count (42_fifo.md R157), cursor and count discarded (10_state.md R28). -/
def State.endScan (s : State) (sc : Scan) : State :=
  { s with
    scan := none
    responses := s.responses ++ [⟨statusOk, .frameCount (BitVec.ofNat 16 sc.count)⟩] }

/-! ### Completion of a request -/

/-- `return 0, results` (00_scope.md R14). -/
def complete (results : Results) (s : State) : Result := .next (s.respond statusOk results)

/-- `raise Status(k)` (00_scope.md R14): the one failure operation of the block. It gives the status and no
results, and leaves the state as it stands: nothing is saved, no mode changes, nothing is jumped to
(60_exceptions.md R185). There is no return from it (R186). -/
def raise (status : Byte) (s : State) : Result := .next (s.respond status .none)

/-- The initialisation gate (60_exceptions.md R182). -/
def gated (s : State) (body : Result) : Result := if s.inited then body else raise statusNotReady s

/-- The calibration table (10_state.md R23: a read of `absent` is a fault). -/
def withCalib (s : State) (body : Calib → Result) : Result :=
  match s.calib with
  | none => .fault .calibAbsent
  | some table => body table

/-- `P_COMP_PRECOND(kind, table, raw)` (41_compensation.md R126, log entry 12). -/
def compPrecond (p : Params) (kind : CompKind) (table : Calib) (raw : Raw) : Bool :=
  decide (⟨kind, table, raw⟩ ∉ p.precondFails)

/-! ### Bus transactions (20_memory.md R44) -/

/-- One transaction: the block waits for its answer (R52) and, if none ever comes, is stuck (60_exceptions.md
R196). -/
def transact (ev : BusEvent) (s : State) (body : BusAnswer → State → Result) : Result :=
  match s.bus with
  | [] => .fault .busNeverAnswers
  | answer :: rest => body answer (s.issue ev rest)

/-- `BusOpen()`, `BusClose()` or `BusWrite(reg, bytes)`: true for `ok`, false for `io_error`. -/
def busDo (ev : BusEvent) (s : State) (body : Bool → State → Result) : Result :=
  transact ev s fun answer s' =>
    match answer with
    | .ok => body true s'
    | .ioError => body false s'
    | .bytes _ => .refused .busAnswerShape

/-- `BusRead(reg, n)`: exactly `n` bytes, or none for `io_error`. -/
def busRead (reg : Byte) (n : Nat) (s : State) (body : Option (List Byte) → State → Result) : Result :=
  transact (.busRead reg n) s fun answer s' =>
    match answer with
    | .bytes bs => if bs.length = n then body (some bs) s' else .refused .busAnswerShape
    | .ioError => body none s'
    | .ok => .refused .busAnswerShape

/-- `BusClose(); raise Status(k)`: the answer of the close is ignored (40_init_calibration.md R100). -/
def closeAndRaise (status : Byte) (s : State) : Result :=
  busDo .busClose s fun _ s' => raise status s'

/-! ### The scan of FIFO_PARSE -/

/-- One frame of a running scan. At full capacity the scan has stopped (42_fifo.md R165); outside a scan there is
no frame to execute (log entry 8). -/
def onScan (s : State) (body : Scan → Result) : Result :=
  match s.scan with
  | none => .fault .noScan
  | some sc => if sc.cap ≤ sc.count then .next (s.endScan sc) else body sc

/-- What the fetch finds: an instruction and the state to run it in, nothing to run with the state it leaves, or
a stop. -/
inductive Fetched
  | run (i : Instr) (s : State)
  | settled (s : State)
  | fault (r : Fault)
  | refused (r : Refusal)
deriving DecidableEq, Repr

/-- The frame at the cursor (42_fifo.md R157): the exits of R165, R166 and R158 first, the header before the rest
of the frame, no byte past the frame (20_memory.md R41). -/
def fetchFrame (s : State) (sc : Scan) : Fetched :=
  if sc.len ≤ sc.cursor ∨ sc.cap ≤ sc.count then .settled (s.endScan sc)
  else
    match memRead s.inBuf sc.len sc.cursor 1 with
    | some [h] =>
      if sc.len < sc.cursor + frameLength s.params h then .settled (s.endScan sc)
      else
        match memRead s.inBuf sc.len sc.cursor (frameLength s.params h) with
        | none => .fault .memReadPastEnd
        | some bs =>
          match decodeFrame s.params bs with
          | .error e => .refused (.encoding e)
          | .ok i => .run i s
    | _ => .fault .memReadPastEnd

/-- The host's next request (30_encoding.md R64, R65). With none to come the block waits (70_reset_and_hazards.md
R200). -/
def fetchRequest (s : State) : Fetched :=
  match s.requests with
  | [] => .settled s
  | r :: rest =>
    match decodeRequest r.word r.payload with
    | .error e => .refused (.encoding e)
    | .ok i => .run i (s.accept rest)

/-- What runs next: the frame at the cursor while a FIFO_PARSE runs, else the host's next request, which waits
for the one before it to end (20_memory.md R52). A parameter set with two equal headers is refused (00_scope.md R8). -/
def fetch (s : State) : Fetched :=
  if s.params.headersDistinct then
    match s.scan with
    | some sc => fetchFrame s sc
    | none => fetchRequest s
  else .refused .equalHeaders

end Sys2Proof.Machine
end

