-- ==== Sys2Proof/Machine/Calibration.lean ====
section
/-! DEFINITION. INIT and DEINIT (40_init_calibration.md). -/

namespace Sys2Proof.Machine

/-- INIT (40_init_calibration.md R100 to R103, R107). -/
def execInit (s : State) : Result :=
  if s.params.linked then
    busDo .busOpen s fun opened s =>
      if opened then
        busRead s.params.chipIdReg 1 s fun r s =>
          if r = some [s.params.chipId] then
            busDo (.busWrite s.params.cmdReg [s.params.cmdSoftReset]) s fun written s =>
              if written then
                busRead s.params.calibReg calibLen s.waited fun c s =>
                  match c with
                  | none => closeAndRaise statusCalib s
                  | some c => complete .none (s.initialise (unpack c))
              else closeAndRaise statusReset s
          else closeAndRaise statusIdentity s
      else raise statusFailed s
  else raise statusNotReady s

/-- DEINIT (40_init_calibration.md R105, R106): not gated. -/
def execDeinit (s : State) : Result :=
  busDo .busClose s fun closed s =>
    if closed then complete .none s.deinitialise else raise statusFailed s

end Sys2Proof.Machine
end

