-- ==== Sys2Proof/Machine/Float.lean ====
section
/-! DEFINITION. The floating-point primitives `f64`, `div64` and `f32` of 00_scope.md R15 and the conversions of
41_compensation.md R123, computed exactly on naturals (log entry 20). -/

namespace Sys2Proof.Machine

/-- A finite float as a sign, a significand and a power of two: its value is `± man * 2^exp`. -/
structure Flt where
  neg : Bool
  man : Nat
  exp : Int
deriving DecidableEq, Repr

/-- `x * 2^e` on a natural, for `e ≥ 0` (1 factor for a negative `e`). -/
def scaleUp (x : Nat) (e : Int) : Nat := x * 2 ^ e.toNat

/-- The largest `k` with `2^k ≤ num / den`, for positive `num` and `den`. -/
def log2Ratio (num den : Nat) : Int :=
  let k : Int := (Nat.log2 num : Int) - (Nat.log2 den : Int)
  if scaleUp den k ≤ scaleUp num (-k) then k else k - 1

/-- `num / den` rounded to the nearest natural, ties to even. -/
def divNearestEven (num den : Nat) : Nat :=
  let q := num / den
  let r := num % den
  if 2 * r < den then q else if den < 2 * r then q + 1 else q + q % 2

/-- `± num / den` rounded to `prec` significant bits, nearest, ties to even. Zero gives zero. -/
def roundRatio (prec : Nat) (neg : Bool) (num den : Nat) : Flt :=
  if num = 0 then ⟨neg, 0, 0⟩
  else
    let e := log2Ratio num den - ((prec : Int) - 1)
    ⟨neg, divNearestEven (scaleUp num (-e)) (scaleUp den e), e⟩

/-- `f64(v)` (00_scope.md R15): the binary64 value (53 significant bits) nearest to the integer. -/
def f64 (v : Int) : Flt := roundRatio 53 (decide (v < 0)) v.natAbs 1

/-- `div64(x, n)` (00_scope.md R15) for a positive integer divisor that binary64 holds exactly. -/
def div64 (x : Flt) (n : Nat) : Flt :=
  roundRatio 53 x.neg (scaleUp x.man x.exp) (scaleUp n (-x.exp))

/-- `f32(x)` (00_scope.md R15): 24 significant bits. -/
def f32 (x : Flt) : Flt := roundRatio 24 x.neg (scaleUp x.man x.exp) (scaleUp 1 (-x.exp))

/-- The binary32 pattern of a value whose significand is 0 or lies in `2^23 .. 2^24`. The values of
41_compensation.md R123 are 0 or normal, so the exponent field never leaves its range. -/
def packF32 (x : Flt) : F32 :=
  let sign : Nat := if x.neg then 2 ^ 31 else 0
  if x.man = 0 then BitVec.ofNat 32 sign
  else BitVec.ofNat 32 (sign + (x.exp + 150).toNat * 2 ^ 23 + (x.man - 2 ^ 23))

/-- `FT` and `FP` of 41_compensation.md R123: to binary64, divided by 100 in binary64, to binary32. -/
def hundredths (v : Int) : F32 := packF32 (f32 (div64 (f64 v) 100))

/-- `FT(T100)`: degrees Celsius (41_compensation.md R123). -/
def celsius (t100 : Int) : F32 := hundredths t100

/-- `FP(P100)`: pascals (41_compensation.md R123). -/
def pascals (p100 : Nat) : F32 := hundredths p100

end Sys2Proof.Machine
end

