-- ==== Sys2Proof/Machine/Compensation.lean ====
section
/-! DEFINITION. The compensation pipeline and COMP_TEMP, COMP_PRESS, READ_TP (41_compensation.md). -/

namespace Sys2Proof.Machine

/-- `pd5` of `CompT` (41_compensation.md R121). -/
def compTPoly (t : Calib) (raw : Raw) : Int :=
  let d : Int := raw.toNat - 256 * t1Z t
  addW (mulW (mulW d (t2Z t)) 262144) (mulW (mulW d d) (t3Z t))

/-- `tf` of `CompT` (41_compensation.md R121). -/
def compTFine (t : Calib) (raw : Raw) : Int := tdivZ (compTPoly t raw) 4294967296

/-- `T100` of `CompT`, from its `tf` (41_compensation.md R121). -/
def compT100 (tf : Int) : Int := tdivZ (mulW tf 25) 16384

/-- `CompT(t, raw) = (tf, T100)` (41_compensation.md R121). -/
def compT (t : Calib) (raw : Raw) : Int × Int := (compTFine t raw, compT100 (compTFine t raw))

/-- `a3` of `CompP` (41_compensation.md R122). -/
def compPCube (tf : Int) : Int := tdivZ (mulW (tdivZ (mulW tf tf) 64) tf) 256

/-- `off` of `CompP` (41_compensation.md R122): the terms of p5 to p8. -/
def compPOffset (t : Calib) (tf : Int) : Int :=
  let a1 := mulW tf tf
  let a4 := tdivZ (mulW (p8Z t) (compPCube tf)) 32
  let a5 := mulW (mulW (p7Z t) a1) 16
  let a6 := mulW (mulW (p6Z t) tf) 4194304
  addW (addW (addW (mulW (p5Z t) 140737488355328) a4) a5) a6

/-- `sens` of `CompP` (41_compensation.md R122): the terms of p1 to p4. -/
def compPSens (t : Calib) (tf : Int) : Int :=
  let a1 := mulW tf tf
  let b2 := tdivZ (mulW (p4Z t) (compPCube tf)) 32
  let b4 := mulW (mulW (p3Z t) a1) 4
  let b5 := mulW (mulW (p2Z t - 16384) tf) 2097152
  addW (addW (addW (mulW (p1Z t - 16384) 70368744177664) b2) b4) b5

/-- `c5` of `CompP` (41_compensation.md R122), in the form `P_PD5_FORM` names. -/
def compPC5 (form : Pd5Form) (c4 raw : Int) : Int :=
  match form with
  | .direct => tdivZ (mulW c4 raw) 512
  | .div10 => mulW (tdivZ (mulW raw (tdivZ c4 10)) 512) 10

/-- `sum` of `CompP` (41_compensation.md R122). -/
def compPSum (form : Pd5Form) (t : Calib) (tf : Int) (raw : Int) : Int :=
  let c1 := mulW (tdivZ (compPSens t tf) 16777216) raw
  let c2 := mulW (p10Z t) tf
  let c3 := addW c2 (mulW 65536 (p9Z t))
  let c4 := tdivZ (mulW c3 raw) 8192
  let c5 := compPC5 form c4 raw
  let c6 := mulW raw raw
  let e2 := tdivZ (mulW (p11Z t) c6) 65536
  let e3 := tdivZ (mulW e2 raw) 128
  addW (addW (addW (tdivZ (compPOffset t tf) 4) c1) c5) e3

/-- `CompP(t, tf, raw) = P100` (41_compensation.md R122); the last step is unsigned. -/
def compP (form : Pd5Form) (t : Calib) (tf : Int) (raw : Raw) : Nat :=
  udivN (u64 (u64 (compPSum form t tf raw.toNat) * 25)) 1099511627776

/-- `CompP` with the state's form and fine temperature as it stands (41_compensation.md R127, 42_fifo.md R161). -/
def compPNow (s : State) (t : Calib) (raw : Raw) : Nat := compP s.params.pd5Form t s.tFine.toInt raw

/-- `T100` and `temp_c` (30_encoding.md R66). -/
def tempResults (t100 : Int) : Results := .temperature (BitVec.ofInt 64 t100) (celsius t100)

/-- `P100` and `press_pa` (30_encoding.md R66). -/
def pressResults (p100 : Nat) : Results := .pressure (BitVec.ofNat 64 p100) (pascals p100)

/-- READ_TP's results (30_encoding.md R66). -/
def bothResults (rawT rawP : Raw) (t100 : Int) (p100 : Nat) : Results :=
  .both rawT rawP (BitVec.ofInt 64 t100) (celsius t100) (BitVec.ofNat 64 p100) (pascals p100)

/-- COMP_TEMP (41_compensation.md R124). -/
def execCompTemp (raw : Raw) (s : State) : Result :=
  gated s <|
    withCalib s fun t =>
      if compPrecond s.params .temp t raw then
        complete (tempResults (compT t raw).2) (s.setTFine (compT t raw).1)
      else raise statusFailed s

/-- COMP_PRESS (41_compensation.md R127). -/
def execCompPress (raw : Raw) (s : State) : Result :=
  gated s <|
    withCalib s fun t =>
      if compPrecond s.params .press t raw then complete (pressResults (compPNow s t raw)) s
      else raise statusFailed s

/-- The two compensations of READ_TP once its bytes are read, temperature first (41_compensation.md R130). -/
def compensateBoth (rawT rawP : Raw) (s : State) : Result :=
  withCalib s fun t =>
    if compPrecond s.params .temp t rawT && compPrecond s.params .press t rawP then
      let s' := s.setTFine (compT t rawT).1
      complete (bothResults rawT rawP (compT t rawT).2 (compPNow s' t rawP)) s'
    else raise statusFailed s

/-- READ_TP (41_compensation.md R130, R131): raw pressure at bytes 0 to 2, raw temperature at bytes 3 to 5. -/
def execReadTp (s : State) : Result :=
  gated s <|
    busRead s.params.dataReg 6 s fun b s =>
      match b with
      | none => raise statusFailed s
      | some b => compensateBoth (rawAt b 3) (rawAt b 0) s

end Sys2Proof.Machine
end

