-- ==== Sys2Proof/Machine/Fifo.lean ====
section
/-! DEFINITION. READ_FIFO and FIFO_PARSE (42_fifo.md R150 to R157). -/

namespace Sys2Proof.Machine

/-- The burst read of READ_FIFO once the length `len` is known to fit (42_fifo.md R150, R153). -/
def burst (cap len : Word16) (s : State) : Result :=
  if len = 0#16 then complete (.length 0#16) s
  else
    busRead s.params.fifoDataReg len.toNat s fun d s =>
      match d with
      | none => raise statusFailed (s.spoilOut cap.toNat)
      | some d => complete (.length len) (s.fillOut d)

/-- READ_FIFO (42_fifo.md R150 to R153). -/
def execReadFifo (cap : Word16) (s : State) : Result :=
  gated s <|
    busRead s.params.fifoLenReg 2 s fun l s =>
      match l with
      | none => raise statusFailed s
      | some l =>
        if cap < fifoLength s.params l then raise statusFailed s
        else burst cap (fifoLength s.params l) s

/-- FIFO_PARSE (42_fifo.md R156, R157): past the gate, the scan begins. Its passes are the steps that follow, each
the frame at the cursor; the scan's exit gives the response (log entry 6). -/
def execFifoParse (cap : Word16) (payload : List Byte) (s : State) : Result :=
  gated s (.next (s.beginScan cap.toNat payload))

end Sys2Proof.Machine
end

