-- ==== Sys2Proof/Machine/Frames.lean ====
section
/-! DEFINITION. The frames of the FIFO byte stream: one pass of the loop of 42_fifo.md R157 each. -/

namespace Sys2Proof.Machine

/-- A header that ends the scan (42_fifo.md R163). -/
def stopMarker (s : State) : Result := onScan s fun sc => .next (s.endScan sc)

/-- A byte that is skipped (42_fifo.md R164). -/
def skipByte (s : State) : Result := onScan s fun sc => .next (s.moveScan sc 1)

/-- `S.t_fine <- tf`, then the TEMPERATURE frame, the cursor moved by `by_` (42_fifo.md R160, R162). -/
def emitTemp (t : Calib) (raw : Raw) (sc : Scan) (by_ : Nat) (s : State) : State :=
  (s.setTFine (compT t raw).1).emit sc by_ ⟨.temperature, raw, some (celsius (compT t raw).2)⟩

/-- The PRESSURE frame with the fine temperature as it stands, the cursor moved by `by_` (42_fifo.md R161). -/
def emitPress (t : Calib) (raw : Raw) (sc : Scan) (by_ : Nat) (s : State) : State :=
  s.emit sc by_ ⟨.pressure, raw, some (pascals (compPNow s t raw))⟩

/-- HDR_EMPTY (42_fifo.md R163). -/
def execHdrEmpty (s : State) : Result := stopMarker s

/-- HDR_CFG_ERR (42_fifo.md R163). -/
def execHdrCfgErr (s : State) : Result := stopMarker s

/-- HDR_TIME (42_fifo.md R159). -/
def execHdrTime (counter : Raw) (s : State) : Result :=
  onScan s fun sc => .next (s.emit sc 4 ⟨.sensorTime, counter, none⟩)

/-- HDR_PRESS (42_fifo.md R161). -/
def execHdrPress (raw : Raw) (s : State) : Result :=
  onScan s fun sc => withCalib s fun t => .next (emitPress t raw sc 4 s)

/-- HDR_TEMP (42_fifo.md R160). -/
def execHdrTemp (raw : Raw) (s : State) : Result :=
  onScan s fun sc => withCalib s fun t => .next (emitTemp t raw sc 4 s)

/-- The combined frame under `split` (42_fifo.md R162): the temperature half, then the pressure half if a slot is
left. -/
def splitFrame (rawT rawP : Raw) (s : State) : Result :=
  onScan s fun sc => withCalib s fun t =>
    let s' := emitTemp t rawT sc 0 s
    let sc' : Scan := { sc with count := sc.count + 1 }
    if sc'.cap ≤ sc'.count then .next (s'.endScan sc')
    else .next (emitPress t rawP sc' 7 s')

/-- HDR_TEMP_PRESS (42_fifo.md R162): under `skip1` an "other" byte (log entry 23). -/
def execHdrTempPress (rawT rawP : Raw) (s : State) : Result :=
  match s.params.combined with
  | .split => splitFrame rawT rawP s
  | .skip1 => skipByte s

/-- HDR_OTHER (42_fifo.md R164): the byte's value has no effect. -/
def execHdrOther (_header : Byte) (s : State) : Result := skipByte s

end Sys2Proof.Machine
end

