-- ==== Sys2Proof/Machine/Dispatch.lean ====
section
/-! DEFINITION. One arm per instruction. -/

namespace Sys2Proof.Machine

def exec (i : Instr) (s : State) : Host.Outcome State Fault Refusal :=
  match i with
  | .init => Sys2Proof.Machine.execInit s
  | .deinit => Sys2Proof.Machine.execDeinit s
  | .compTemp raw => Sys2Proof.Machine.execCompTemp raw s
  | .compPress raw => Sys2Proof.Machine.execCompPress raw s
  | .readTp => Sys2Proof.Machine.execReadTp s
  | .readFifo cap => Sys2Proof.Machine.execReadFifo cap s
  | .fifoParse cap payload => Sys2Proof.Machine.execFifoParse cap payload s
  | .hdrEmpty => Sys2Proof.Machine.execHdrEmpty s
  | .hdrCfgErr => Sys2Proof.Machine.execHdrCfgErr s
  | .hdrTime counter => Sys2Proof.Machine.execHdrTime counter s
  | .hdrPress raw => Sys2Proof.Machine.execHdrPress raw s
  | .hdrTemp raw => Sys2Proof.Machine.execHdrTemp raw s
  | .hdrTempPress rawT rawP => Sys2Proof.Machine.execHdrTempPress rawT rawP s
  | .hdrOther header => Sys2Proof.Machine.execHdrOther header s

end Sys2Proof.Machine
end

