-- ==== Sys2Proof/Machine/Step.lean ====
section
/-! DEFINITION. One step, and the placement of one instruction where the next step fetches it. -/

namespace Sys2Proof.Machine

/-- One step: what the fetch finds runs. A request is one step, but for FIFO_PARSE, which goes on for one step a
pass of its loop (log entry 6). -/
def step (s : State) : Host.Outcome State Fault Refusal :=
  match fetch s with
  | .run i s' => exec i s'
  | .settled s' => .next s'
  | .fault r => .fault r
  | .refused r => .refused r

/-- The answers of a bus on which everything succeeds, as INIT asks for them: the open, the identity byte, the
reset write and a calibration table of zeros. The first of them also answers DEINIT's close (log entry 15). -/
def respondingBus (p : Params) : List BusAnswer :=
  [.ok, .bytes [p.chipId], .ok, .bytes (List.replicate calibLen 0#8)]

/-- A command word put first in the host's queue, with no scan in progress; a bus that has no answer to come is given
some (log entry 15). -/
def State.withCommand (s : State) (w : CommandWord) : State :=
  { s with
    scan := none
    requests := ⟨w, []⟩ :: s.requests
    bus := if s.bus = [] then respondingBus s.params else s.bus }

/-- A frame put at the cursor of a scan that has just begun, with room for frames; a scan runs only in an initialised
block with a table (log entry 15). -/
def State.withFrame (s : State) (bs : List Byte) : State :=
  { s.beginScan maxPayload bs with
    inited := true
    calib := some (s.calib.getD (unpack (List.replicate calibLen 0#8))) }

/-- The instruction of spec/opcode_table.json whose bits are `w`, placed where the next step fetches it: a row of 32
bits is a request, any other a frame. -/
def State.withFetchWord (s : State) (nbits w : Nat) : State :=
  if nbits = 32 then s.withCommand (BitVec.ofNat 32 w)
  else s.withFrame (bytesOfNat longestFrame (w % 2 ^ nbits))

end Sys2Proof.Machine
end

