-- ==== Sys2Proof/Safety.lean ====
section
/-! DEFINITION. What counts as a good state, the request encodings the block refuses, the rows of the opcode
table, and the decode loop of 42_fifo.md R157 written as one function: the words the statements use. -/

namespace Sys2Proof.Machine

/-! ### Good states -/

/-- The scan of a running FIFO_PARSE: cursor in `0 .. len`, count in `0 .. cap` (10_state.md R28), both bounds 16-bit
(00_scope.md R10), the block initialised (60_exceptions.md R182) and the whole payload in the host input buffer
(20_memory.md R41). -/
structure ScanOk (s : State) (sc : Scan) : Prop where
  cursor_le : sc.cursor ≤ sc.len
  count_le : sc.count ≤ sc.cap
  len_le : sc.len ≤ maxPayload
  cap_le : sc.cap ≤ 65535
  inited : s.inited = true
  listed : ∀ a, a < sc.len → (Memory.read s.inBuf a).isSome = true

/-- The invariant of the machine: the buffers keep their canonical form; an initialised block has a table
(10_state.md R23); the fine temperature stays in the range of R26; a frame has converted data exactly if it is no
SENSORTIME frame (R30); a scan in progress is in order. -/
structure State.Inv (s : State) : Prop where
  inBuf_wf : Memory.wf s.inBuf = true
  outBuf_wf : Memory.wf s.outBuf = true
  frames_wf : Memory.wf s.frames = true
  calib : s.inited = true → s.calib.isSome = true
  tFine_ge : -75495168 ≤ s.tFine.toInt
  tFine_le : s.tFine.toInt ≤ 75430907
  frame_data : ∀ k f, Memory.read s.frames k = some f → (f.data.isSome = true ↔ f.type ≠ .sensorTime)
  scan : ∀ sc, s.scan = some sc → ScanOk s sc

/-! ### Encodings -/

/-- The seven `host_cmd32` rows of spec/opcode_table.json as (mask, match) (30_encoding.md R65). -/
def commandRows : List (CommandWord × CommandWord) :=
  [(0xFFFFFFFF#32, 0x01000000#32), (0xFFFFFFFF#32, 0x02000000#32), (0xFF000000#32, 0x10000000#32),
   (0xFF000000#32, 0x11000000#32), (0xFFFFFFFF#32, 0x12000000#32), (0xFFFF0000#32, 0x20000000#32),
   (0xFFFF0000#32, 0x21000000#32)]

/-- The opcodes of 30_encoding.md R62. -/
def opcodes : List Byte := [0x01#8, 0x02#8, 0x10#8, 0x11#8, 0x12#8, 0x20#8, 0x21#8]

/-- The five cases (a) to (e) of 30_encoding.md R64. -/
def BadRequest (w : CommandWord) (payload : List Byte) : Prop :=
  w.extractLsb' 24 8 ∉ opcodes
    ∨ (w.extractLsb' 24 8 ∈ [0x01#8, 0x02#8, 0x12#8] ∧ w.extractLsb' 0 24 ≠ 0#24)
    ∨ (w.extractLsb' 24 8 ∈ [0x20#8, 0x21#8] ∧ w.extractLsb' 16 8 ≠ 0#8)
    ∨ (payload ≠ [] ∧ w.extractLsb' 24 8 ≠ 0x21#8)
    ∨ (w.extractLsb' 24 8 = 0x21#8 ∧ 65535 < payload.length)

/-! ### The decode loop -/

/-- The decode loop of 42_fifo.md R157 on the bytes not yet read, with `n` frames written and the fine temperature
`tf`: the frames still to come, in order, and the fine temperature at the exit. A pass consumes at least one byte
(R168), so `fuel` above the number of bytes is enough. -/
def decodeLoop (p : Params) (c : Calib) (cap fuel n : Nat) (tf : Int) (bytes : List Byte) : List Frame × Int :=
  match fuel with
  | 0 => ([], tf)
  | fuel + 1 =>
    if cap ≤ n then ([], tf)
    else
      match bytes with
      | [] => ([], tf)
      | h :: rest =>
        if h = p.hdrEmpty ∨ h = p.hdrCfgErr then ([], tf)
        else if h = p.hdrTime ∨ h = p.hdrTemp ∨ h = p.hdrPress then
          match rest with
          | b0 :: b1 :: b2 :: rest =>
            let raw := le24 b0 b1 b2
            let tf' := if h = p.hdrTemp then (compT c raw).1 else tf
            let f : Frame :=
              if h = p.hdrTime then ⟨.sensorTime, raw, none⟩
              else if h = p.hdrTemp then ⟨.temperature, raw, some (celsius (compT c raw).2)⟩
              else ⟨.pressure, raw, some (pascals (compP p.pd5Form c tf raw))⟩
            let more := decodeLoop p c cap fuel (n + 1) tf' rest
            (f :: more.1, more.2)
          | _ => ([], tf)
        else if h = p.hdrTempPress ∧ p.combined = .split then
          match rest with
          | t0 :: t1 :: t2 :: q0 :: q1 :: q2 :: rest =>
            let rawT := le24 t0 t1 t2
            let rawP := le24 q0 q1 q2
            let tf' := (compT c rawT).1
            let fT : Frame := ⟨.temperature, rawT, some (celsius (compT c rawT).2)⟩
            if cap ≤ n + 1 then ([fT], tf')
            else
              let fP : Frame := ⟨.pressure, rawP, some (pascals (compP p.pd5Form c tf' rawP))⟩
              let more := decodeLoop p c cap fuel (n + 2) tf' rest
              (fT :: fP :: more.1, more.2)
          | _ => ([], tf)
        else decodeLoop p c cap fuel n tf rest

/-! ### Floats -/

/-- The rational a normal binary32 pattern stands for (00_scope.md R15). -/
def f32Value (x : F32) : ℚ :=
  (if x.getLsbD 31 then -1 else 1) * ((2 ^ 23 + (x.extractLsb' 0 23).toNat : ℕ) : ℚ)
    * (2 : ℚ) ^ (((x.extractLsb' 23 8).toNat : Int) - 150)

/-- The rational a `Flt` stands for. -/
def fltValue (x : Flt) : ℚ := (if x.neg then -1 else 1) * (x.man : ℚ) * (2 : ℚ) ^ x.exp

end Sys2Proof.Machine
end

