-- ==== Sys2Proof/Certificates/Slice0/Obligations.lean ====
section
/-! DEFINITION. The statements about the model. Status codes and bus transactions are written out here from the
spec (60_exceptions.md R180, 20_memory.md R49), not through the model's names for them. -/

open Sys2Proof Sys2Proof.Machine

/-! ### Encodings -/

/-- 30_encoding.md R61, R62: the word (and payload) of every well-formed host command decodes to that command, with
every operand. The word format is the spec's own (D2). -/
def Obligations.CommandsDecodeFromTheirEncoding : Prop :=
  ∀ (p : Params) (i : Instr), i.isCommand = true → i.wf p = true → decode p (encode p i) = .ok i

/-- 30_encoding.md R68, R69, R71: the bytes of every well-formed frame, with any bytes after them, decode to that
frame, and its length is the one its header byte gives. -/
def Obligations.FramesDecodeFromTheirEncoding : Prop :=
  ∀ (p : Params) (i : Instr) (rest : List Byte),
    p.headersDistinct = true → i.isCommand = false → i.wf p = true →
      ∃ h payload, encode p i = .frame (h :: payload) ∧ (h :: payload).length = frameLength p h ∧
        decodeFrame p (h :: payload ++ rest) = .ok i

/-- 30_encoding.md R61, R64: a request that decodes is the encoding of what it decodes to, so no bit of an accepted
word is ignored. -/
def Obligations.RequestsEncodeBack : Prop :=
  ∀ (p : Params) (w : CommandWord) (payload : List Byte) (i : Instr),
    decodeRequest w payload = .ok i → encode p i = .request w payload ∧ i.wf p = true ∧ i.isCommand = true

/-- 30_encoding.md R68, R71: bytes that decode to a frame begin with the encoding of that frame, of the length their
first byte gives. -/
def Obligations.FramesEncodeBack : Prop :=
  ∀ (p : Params) (h : Byte) (bs : List Byte) (i : Instr),
    decodeFrame p (h :: bs) = .ok i →
      encode p i = .frame ((h :: bs).take (frameLength p h)) ∧ frameLength p h ≤ (h :: bs).length ∧
        i.wf p = true ∧ i.isCommand = false

/-- 30_encoding.md R65 ("at most one row matches", marked derived there): a word decodes exactly when it matches a row
of the opcode table, and it matches at most one. -/
def Obligations.CommandTableDecides : Prop :=
  ∀ (w : CommandWord) (payload : List Byte),
    ((∃ i, decodeWord w payload = .ok i) ↔ ∃ r ∈ commandRows, w &&& r.1 = r.2) ∧
      ∀ r ∈ commandRows, ∀ r' ∈ commandRows, w &&& r.1 = r.2 → w &&& r'.1 = r'.2 → r = r'

/-- 30_encoding.md R64: the host's next request is refused exactly in the cases (a) to (e). A refused step has no next
state, so it changes nothing and gives no status. -/
def Obligations.BadRequestsAreRefused : Prop :=
  ∀ (s : State) (r : Request) (rest : List Request),
    s.params.headersDistinct = true → s.scan = none → s.requests = r :: rest →
      (BadRequest r.word r.payload ↔ ∃ e, step s = .refused (.encoding e))

/-- 95_test_vectors.md 2.1 and 30_encoding.md R69: words and frames of the spec decode to what they stand for. -/
def Obligations.SpecWordsDecode : Prop :=
  decodeRequest 0x01000000#32 [] = .ok .init ∧
    decodeRequest 0x02000000#32 [] = .ok .deinit ∧
    decodeRequest 0x10810000#32 [] = .ok (.compTemp 0x810000#24) ∧
    decodeRequest 0x11600000#32 [] = .ok (.compPress 0x600000#24) ∧
    decodeRequest 0x12000000#32 [] = .ok .readTp ∧
    decodeRequest 0x20000010#32 [] = .ok (.readFifo 16#16) ∧
    decodeRequest 0x21000008#32 [0x80#8] = .ok (.fifoParse 8#16 [0x80#8]) ∧
    decodeFrame defaultParams [0x94#8, 1#8, 2#8, 3#8, 4#8, 5#8, 6#8]
      = .ok (.hdrTempPress 0x030201#24 0x060504#24)

/-! ### Steps -/

/-- 20_memory.md R52, 30_encoding.md R60: with no scan in progress, the host's next request that decodes is taken off
the queue and executed. -/
def Obligations.StepRunsTheRequest : Prop :=
  ∀ (s : State) (r : Request) (rest : List Request) (i : Instr),
    s.params.headersDistinct = true → s.scan = none → s.requests = r :: rest →
      decodeRequest r.word r.payload = .ok i → step s = exec i { s with requests := rest }

/-- 42_fifo.md R157: while a scan has room and bytes left, a step executes the frame at the cursor. -/
def Obligations.StepRunsTheFrame : Prop :=
  ∀ (s : State) (sc : Scan) (h : Byte) (bs : List Byte) (i : Instr),
    s.params.headersDistinct = true → s.scan = some sc → sc.count < sc.cap →
      memRead s.inBuf sc.len sc.cursor 1 = some [h] →
      memRead s.inBuf sc.len sc.cursor (frameLength s.params h) = some bs →
      decodeFrame s.params bs = .ok i → step s = exec i s

/-- 70_reset_and_hazards.md R200: with no scan and no request the block waits. That the wait is a step that changes
nothing is the model's (log entry 5). -/
def Obligations.WaitsForTheNextRequest : Prop :=
  ∀ s : State, s.params.headersDistinct = true → s.scan = none → s.requests = [] → step s = .next s

/-- 00_scope.md R8: "a model refuses a parameter set where two are equal". The rule does not say when: that it is at
every step is the model's choice (DESIGN CHOICE, log entry 24). -/
def Obligations.EqualHeadersAreRefused : Prop :=
  ∀ s : State, ¬ s.params.headers.Nodup → step s = .refused .equalHeaders

/-- 20_memory.md R52, R54: a running FIFO_PARSE ends before the next request begins, and makes no bus transaction. -/
def Obligations.RequestsWaitForTheScan : Prop :=
  ∀ (s t : State) (sc : Scan), s.scan = some sc → step s = .next t →
    t.requests = s.requests ∧ t.bus = s.bus ∧ t.trace = s.trace

/-! ### Reset and invariants -/

/-- 10_state.md R33. -/
def Obligations.ResetValues : Prop :=
  State.reset.inited = false ∧ State.reset.calib = none ∧ State.reset.tFine = 0#64 ∧ State.reset.scan = none

def Obligations.InvariantAtReset : Prop := State.reset.Inv

/-- Every step keeps the invariant of Safety.lean: canonical buffers, a table in every initialised state
(10_state.md R23), the fine temperature in the range of R26 (marked derived there), frames with the data R30 gives
them, and a scan within its bounds (R28). From a good state the one fault a step can stop with is that of
60_exceptions.md R196: the absent table is never read (10_state.md R23), no read leaves the buffer (20_memory.md
R41), both marked derived there, and no frame runs outside a scan (the model's, log entry 8). -/
def Obligations.StepKeepsInvariant : Prop :=
  ∀ s : State, s.Inv →
    (∀ t, step s = .next t → t.Inv) ∧ ∀ r, step s = .fault r → r = .busNeverAnswers

/-- 10_state.md R31, 20_memory.md R51, R52, 30_encoding.md R60: a step never changes a parameter, never takes back a
bus transaction or a response, gives at most one response, and uses requests and bus answers in order. -/
def Obligations.OutputsOnlyGrow : Prop :=
  ∀ s t : State, step s = .next t →
    t.params = s.params ∧ s.trace <+: t.trace ∧ s.responses <+: t.responses ∧
      t.responses.length ≤ s.responses.length + 1 ∧ t.bus <:+ s.bus ∧ t.requests <:+ s.requests

/-- 40_init_calibration.md R108: only a successful INIT writes the calibration table. -/
def Obligations.OnlyInitWritesCalibration : Prop :=
  ∀ (i : Instr) (s t : State), exec i s = .next t → t.calib ≠ s.calib →
    i = .init ∧ t.inited = true ∧ t.responses = s.responses ++ [⟨0#8, .none⟩]

/-- 10_state.md R21: INIT sets the bit when it succeeds, DEINIT clears it when it succeeds, nothing else writes it. -/
def Obligations.OnlyInitAndDeinitWriteInited : Prop :=
  ∀ (i : Instr) (s t : State), exec i s = .next t → t.inited ≠ s.inited →
    ((i = .init ∧ t.inited = true) ∨ (i = .deinit ∧ t.inited = false)) ∧
      t.responses = s.responses ++ [⟨0#8, .none⟩]

/-- 10_state.md R25: the writers of the fine temperature. INIT and DEINIT are not among them, so the value crosses
sessions (R34). -/
def Obligations.OnlyTemperaturesWriteTFine : Prop :=
  ∀ (i : Instr) (s t : State), exec i s = .next t → t.tFine ≠ s.tFine →
    (∃ raw, i = .compTemp raw) ∨ i = .readTp ∨ (∃ raw, i = .hdrTemp raw) ∨
      ∃ rawT rawP, i = .hdrTempPress rawT rawP

/-- 60_exceptions.md R182: with the bit clear the five operations return status 3 and do nothing else; INIT and
DEINIT do the same whatever the bit. -/
def Obligations.UninitialisedGate : Prop :=
  (∀ (s : State) (i : Instr), s.inited = false →
      ((∃ raw, i = .compTemp raw) ∨ (∃ raw, i = .compPress raw) ∨ i = .readTp ∨ (∃ cap, i = .readFifo cap) ∨
        ∃ cap payload, i = .fifoParse cap payload) →
      exec i s = .next { s with responses := s.responses ++ [⟨3#8, .none⟩] }) ∧
    ∀ (s t : State) (i : Instr) (b : Bool), i = .init ∨ i = .deinit → exec i s = .next t →
      ∃ t', exec i { s with inited := b } = .next t' ∧ t'.responses = t.responses ∧ t'.trace = t.trace ∧
        t'.calib = t.calib

/-- 60_exceptions.md R180, 30_encoding.md R66: the status codes the block returns; no results beside a failure; codes
4 to 6 from INIT alone. -/
def Obligations.StatusCodes : Prop :=
  ∀ (i : Instr) (s t : State), exec i s = .next t →
    t.responses = s.responses ∨
      ∃ k r, t.responses = s.responses ++ [⟨k, r⟩] ∧ k ∈ [0#8, 1#8, 3#8, 4#8, 5#8, 6#8] ∧
        (k ≠ 0#8 → r = .none) ∧ (k ∈ [4#8, 5#8, 6#8] → i = .init)

/-- 60_exceptions.md R184, R185: a request that fails leaves the block's state and the host's buffers unchanged, but
for the output buffer of a READ_FIFO. -/
def Obligations.FailuresLeaveTheState : Prop :=
  ∀ (i : Instr) (s t : State) (k : Byte) (r : Results), exec i s = .next t →
    t.responses = s.responses ++ [⟨k, r⟩] → k ≠ 0#8 →
      t.inited = s.inited ∧ t.calib = s.calib ∧ t.tFine = s.tFine ∧ t.scan = s.scan ∧ t.inBuf = s.inBuf ∧
        t.frames = s.frames ∧ ((∀ cap, i ≠ .readFifo cap) → t.outBuf = s.outBuf ∧ t.draws = s.draws)

/-- 20_memory.md R49: COMP_TEMP, COMP_PRESS, FIFO_PARSE and the frames it decodes make no bus transaction. -/
def Obligations.NoBusTransactions : Prop :=
  ∀ (i : Instr) (s t : State), i ≠ .init → i ≠ .deinit → i ≠ .readTp → (∀ cap, i ≠ .readFifo cap) →
    exec i s = .next t → t.bus = s.bus ∧ t.trace = s.trace

/-- 60_exceptions.md R196: a bus transaction that never returns leaves the block stuck, whichever transaction of the
operation it is: INIT's open, identity read, reset write, calibration read and each of its three closes, DEINIT's
close, READ_TP's data read, READ_FIFO's length read and burst read. (The fault for it is the model's, log entry 3.) -/
def Obligations.UnansweredBusIsStuck : Prop :=
  ∀ s : State,
    (s.bus = [] → exec .deinit s = .fault .busNeverAnswers) ∧
    (∀ x, (x = .ioError ∨ ∃ b, b ≠ s.params.chipId ∧ x = .bytes [b]) → s.params.linked = true →
      s.bus ∈ [[], [.ok], [.ok, x], [.ok, .bytes [s.params.chipId]],
        [.ok, .bytes [s.params.chipId], .ioError], [.ok, .bytes [s.params.chipId], .ok],
        [.ok, .bytes [s.params.chipId], .ok, .ioError]] →
      exec .init s = .fault .busNeverAnswers) ∧
    (s.inited = true → s.bus = [] →
      exec .readTp s = .fault .busNeverAnswers ∧ ∀ cap, exec (.readFifo cap) s = .fault .busNeverAnswers) ∧
    ∀ (cap : Word16) (l0 l1 : Byte), s.inited = true → s.bus = [.bytes [l0, l1]] →
      0 < (le16 l0 l1 &&& s.params.fifoLenMask).toNat →
      (le16 l0 l1 &&& s.params.fifoLenMask).toNat ≤ cap.toNat →
      exec (.readFifo cap) s = .fault .busNeverAnswers

/-! ### INIT and DEINIT -/

/-- 40_init_calibration.md R100: INIT on a bus where every transaction succeeds; nothing else changes. -/
def Obligations.InitLoadsCalibration : Prop :=
  ∀ (s : State) (c : List Byte) (rest : List BusAnswer),
    s.params.linked = true → c.length = 21 →
      s.bus = .ok :: .bytes [s.params.chipId] :: .ok :: .bytes c :: rest →
      exec .init s = .next { s with
        inited := true
        calib := some (unpack c)
        bus := rest
        trace := s.trace ++ [.busOpen, .busRead s.params.chipIdReg 1,
          .busWrite s.params.cmdReg [s.params.cmdSoftReset], .waitMs s.params.resetDelayMs,
          .busRead s.params.calibReg 21]
        responses := s.responses ++ [⟨0#8, .none⟩] }

/-- 40_init_calibration.md R101: INIT's status codes in the order of its table, each with the transactions made before
it. `a` is the ignored answer of the close. -/
def Obligations.InitStatusOrder : Prop :=
  ∀ (s : State) (rest : List BusAnswer) (a : BusAnswer), a = .ok ∨ a = .ioError →
    (s.params.linked = false →
      exec .init s = .next { s with responses := s.responses ++ [⟨3#8, .none⟩] }) ∧
    (s.params.linked = true → s.bus = .ioError :: rest →
      exec .init s = .next { s with
        bus := rest, trace := s.trace ++ [.busOpen], responses := s.responses ++ [⟨1#8, .none⟩] }) ∧
    (∀ x, (x = .ioError ∨ ∃ b, b ≠ s.params.chipId ∧ x = .bytes [b]) → s.params.linked = true →
      s.bus = .ok :: x :: a :: rest →
      exec .init s = .next { s with
        bus := rest
        trace := s.trace ++ [.busOpen, .busRead s.params.chipIdReg 1, .busClose]
        responses := s.responses ++ [⟨4#8, .none⟩] }) ∧
    (s.params.linked = true → s.bus = .ok :: .bytes [s.params.chipId] :: .ioError :: a :: rest →
      exec .init s = .next { s with
        bus := rest
        trace := s.trace ++ [.busOpen, .busRead s.params.chipIdReg 1,
          .busWrite s.params.cmdReg [s.params.cmdSoftReset], .busClose]
        responses := s.responses ++ [⟨5#8, .none⟩] }) ∧
    (s.params.linked = true → s.bus = .ok :: .bytes [s.params.chipId] :: .ok :: .ioError :: a :: rest →
      exec .init s = .next { s with
        bus := rest
        trace := s.trace ++ [.busOpen, .busRead s.params.chipIdReg 1,
          .busWrite s.params.cmdReg [s.params.cmdSoftReset], .waitMs s.params.resetDelayMs,
          .busRead s.params.calibReg 21, .busClose]
        responses := s.responses ++ [⟨6#8, .none⟩] }) ∧
    (∀ c : List Byte, c.length = 21 → s.params.linked = true →
      s.bus = .ok :: .bytes [s.params.chipId] :: .ok :: .bytes c :: rest →
      ∃ t, exec .init s = .next t ∧ t.responses = s.responses ++ [⟨0#8, .none⟩])

/-- 40_init_calibration.md R103: INIT's effect on the state. -/
def Obligations.InitEffect : Prop :=
  ∀ s t : State, exec .init s = .next t →
    t.tFine = s.tFine ∧ t.scan = s.scan ∧ t.inBuf = s.inBuf ∧ t.outBuf = s.outBuf ∧ t.frames = s.frames ∧
      ∃ k, t.responses = s.responses ++ [⟨k, .none⟩] ∧
        ((k = 0#8 ∧ t.inited = true ∧
            ∃ c : List Byte, c.length = 21 ∧ .bytes c ∈ s.bus ∧ t.calib = some (unpack c)) ∨
          (k ≠ 0#8 ∧ t.inited = s.inited ∧ t.calib = s.calib))

/-- 40_init_calibration.md R104 (marked derived there): `Pack` and `Unpack` are inverse. -/
def Obligations.UnpackPackRoundTrip : Prop :=
  (∀ c : List Byte, c.length = 21 → pack (unpack c) = c) ∧ ∀ t : Calib, unpack (pack t) = t ∧ (pack t).length = 21

/-- 40_init_calibration.md R106: DEINIT's effect, for both answers of the close; nothing else changes. -/
def Obligations.DeinitEffect : Prop :=
  ∀ (s : State) (rest : List BusAnswer),
    (s.bus = .ok :: rest →
      exec .deinit s = .next { s with
        inited := false, bus := rest, trace := s.trace ++ [.busClose]
        responses := s.responses ++ [⟨0#8, .none⟩] }) ∧
    (s.bus = .ioError :: rest →
      exec .deinit s = .next { s with
        bus := rest, trace := s.trace ++ [.busClose], responses := s.responses ++ [⟨1#8, .none⟩] })

/-! ### Compensation -/

/-- 41_compensation.md R124: COMP_TEMP writes the fine temperature and answers T100 and temp_c; nothing else
changes. -/
def Obligations.CompTempResult : Prop :=
  ∀ (s : State) (c : Calib) (raw : Raw), s.inited = true → s.calib = some c →
    ⟨.temp, c, raw⟩ ∉ s.params.precondFails →
      exec (.compTemp raw) s = .next { s with
        tFine := BitVec.ofInt 64 (compT c raw).1
        responses := s.responses ++
          [⟨0#8, .temperature (BitVec.ofInt 64 (compT c raw).2) (celsius (compT c raw).2)⟩] }

/-- 41_compensation.md R127, R128: COMP_PRESS answers P100 and press_pa for the fine temperature as it stands; nothing
but the response is added. -/
def Obligations.CompPressResult : Prop :=
  ∀ (s : State) (c : Calib) (raw : Raw), s.inited = true → s.calib = some c →
    ⟨.press, c, raw⟩ ∉ s.params.precondFails →
      exec (.compPress raw) s = .next { s with
        responses := s.responses ++
          [⟨0#8, .pressure (BitVec.ofNat 64 (compP s.params.pd5Form c s.tFine.toInt raw))
            (pascals (compP s.params.pd5Form c s.tFine.toInt raw))⟩] }

/-- 41_compensation.md R126: when the precondition is false the operation returns status 1 and writes nothing.
(`P_COMP_PRECOND` as a list of its false points is the model's, log entry 12.) -/
def Obligations.PreconditionFailures : Prop :=
  ∀ (s : State) (c : Calib), s.inited = true → s.calib = some c →
    (∀ raw, ⟨.temp, c, raw⟩ ∈ s.params.precondFails →
      exec (.compTemp raw) s = .next { s with responses := s.responses ++ [⟨1#8, .none⟩] }) ∧
    (∀ raw, ⟨.press, c, raw⟩ ∈ s.params.precondFails →
      exec (.compPress raw) s = .next { s with responses := s.responses ++ [⟨1#8, .none⟩] }) ∧
    (∀ (p0 p1 p2 t0 t1 t2 : Byte) (rest : List BusAnswer),
      s.bus = .bytes [p0, p1, p2, t0, t1, t2] :: rest →
      (⟨.temp, c, le24 t0 t1 t2⟩ ∈ s.params.precondFails ∨ ⟨.press, c, le24 p0 p1 p2⟩ ∈ s.params.precondFails) →
      exec .readTp s = .next { s with
        bus := rest
        trace := s.trace ++ [.busRead s.params.dataReg 6]
        responses := s.responses ++ [⟨1#8, .none⟩] })

/-- 41_compensation.md R130: READ_TP compensates temperature first; the pressure uses the fine temperature of the same
six bytes; nothing else changes. -/
def Obligations.ReadTpResult : Prop :=
  ∀ (s : State) (c : Calib) (p0 p1 p2 t0 t1 t2 : Byte) (rest : List BusAnswer), s.inited = true →
    s.calib = some c → s.bus = .bytes [p0, p1, p2, t0, t1, t2] :: rest →
    ⟨.temp, c, le24 t0 t1 t2⟩ ∉ s.params.precondFails → ⟨.press, c, le24 p0 p1 p2⟩ ∉ s.params.precondFails →
      exec .readTp s = .next { s with
        tFine := BitVec.ofInt 64 (compT c (le24 t0 t1 t2)).1
        bus := rest
        trace := s.trace ++ [.busRead s.params.dataReg 6]
        responses := s.responses ++
          [⟨0#8, .both (le24 t0 t1 t2) (le24 p0 p1 p2)
            (BitVec.ofInt 64 (compT c (le24 t0 t1 t2)).2) (celsius (compT c (le24 t0 t1 t2)).2)
            (BitVec.ofNat 64 (compP s.params.pd5Form c (compT c (le24 t0 t1 t2)).1 (le24 p0 p1 p2)))
            (pascals (compP s.params.pd5Form c (compT c (le24 t0 t1 t2)).1 (le24 p0 p1 p2)))⟩] }

/-- 41_compensation.md R130, 60_exceptions.md R184 (row "DATA read fails"): READ_TP whose six-byte read fails answers
status 1 after that one transaction, and nothing else changes. -/
def Obligations.ReadTpFailedRead : Prop :=
  ∀ (s : State) (rest : List BusAnswer), s.inited = true → s.bus = .ioError :: rest →
    exec .readTp s = .next { s with
      bus := rest
      trace := s.trace ++ [.busRead s.params.dataReg 6]
      responses := s.responses ++ [⟨1#8, .none⟩] }

/-- 41_compensation.md R131: READ_TP's effect on the state, by its status. -/
def Obligations.ReadTpEffect : Prop :=
  ∀ s t : State, exec .readTp s = .next t →
    t.inited = s.inited ∧ t.calib = s.calib ∧
      ∃ k r, t.responses = s.responses ++ [⟨k, r⟩] ∧
        ((k = 0#8 ∧ ∃ c rawT rawP t100 tc p100 pa, s.calib = some c ∧ r = .both rawT rawP t100 tc p100 pa ∧
            t.tFine = BitVec.ofInt 64 (compT c rawT).1) ∨
          ((k = 1#8 ∨ k = 3#8) ∧ r = .none ∧ t.tFine = s.tFine))

/-- 41_compensation.md R130, corner cases: READ_TP's answer never depends on an older fine temperature. -/
def Obligations.ReadTpIgnoresOlderTFine : Prop :=
  ∀ (s t : State) (x : Word64), exec .readTp s = .next t →
    ∃ t', exec .readTp { s with tFine := x } = .next t' ∧ t'.responses = t.responses ∧ t'.trace = t.trace

/-- 41_compensation.md R121 (no step of `CompT` wraps, marked derived there; the formula is the spec's from general
knowledge, GK3): `CompT` is the polynomial over the unbounded integers. -/
def Obligations.CompTNeverWraps : Prop :=
  ∀ (c : Calib) (raw : Raw),
    let d : Int := raw.toNat - 256 * c.t1.toNat
    let tf := (c.t2.toNat * d * 2 ^ 18 + c.t3.toInt * d ^ 2).tdiv (2 ^ 32)
    compT c raw = (tf, (25 * tf).tdiv (2 ^ 14))

/-- 10_state.md R26, 41_compensation.md R125 (both marked derived there): the ranges of the fine temperature and of
T100, for every table and raw value. -/
def Obligations.FineTemperatureRange : Prop :=
  ∀ (c : Calib) (raw : Raw),
    -75495168 ≤ (compT c raw).1 ∧ (compT c raw).1 ≤ 75430907 ∧
      -115196 ≤ (compT c raw).2 ∧ (compT c raw).2 ≤ 115098

/-- 00_scope.md R12, 41_compensation.md R133 (the latter marked derived there): `wrap64` is the signed 64-bit
representative, and sums and products may be regrouped. -/
def Obligations.WrapIsARingMap : Prop :=
  (∀ v : Int, -2 ^ 63 ≤ wrap64 v ∧ wrap64 v < 2 ^ 63 ∧ (2 ^ 64 : Int) ∣ wrap64 v - v) ∧
    (∀ a b c : Int, mulW (mulW a b) c = wrap64 (a * b * c) ∧ addW (addW a b) c = wrap64 (a + b + c) ∧
      mulW a (addW b c) = addW (mulW a b) (mulW a c))

/-- 41_compensation.md R122, the last line: P100 is an unsigned value below `2^24`, since a 64-bit value is divided by
`2^40`. -/
def Obligations.PressureRange : Prop :=
  ∀ (form : Pd5Form) (c : Calib) (tf : Int) (raw : Raw), compP form c tf raw < 2 ^ 24

/-- 41_compensation.md R122 with R133 (the latter marked derived there; the formula is the spec's from general
knowledge, GK3): `CompP`, for both values of `P_PD5_FORM`, is R122's formula over the unbounded integers, its sums and
products taken modulo `2^64` only where a division toward zero follows; at the end 25 times the sum, modulo `2^64` and
unsigned, is divided by `2^40`. -/
def Obligations.CompPIsItsFormula : Prop :=
  ∀ (form : Pd5Form) (c : Calib) (tf : Int) (raw : Raw),
    let w : Int → Int := fun v => (v + 2 ^ 63) % 2 ^ 64 - 2 ^ 63
    let r : Int := raw.toNat
    let a3 := (w ((w (tf ^ 2)).tdiv 64 * tf)).tdiv 256
    let a4 := (w (c.p8.toInt * a3)).tdiv 32
    let off := w (c.p5.toNat * 2 ^ 47 + a4 + c.p7.toInt * tf ^ 2 * 16 + c.p6.toNat * tf * 2 ^ 22)
    let b2 := (w (c.p4.toInt * a3)).tdiv 32
    let sens := w ((c.p1.toInt - 16384) * 2 ^ 46 + b2 + c.p3.toInt * tf ^ 2 * 4
      + (c.p2.toInt - 16384) * tf * 2 ^ 21)
    let c4 := (w ((c.p10.toInt * tf + 65536 * c.p9.toInt) * r)).tdiv 8192
    let c5 := match form with
      | .direct => (w (c4 * r)).tdiv 512
      | .div10 => (w (r * c4.tdiv 10)).tdiv 512 * 10
    let e3 := (w ((w (c.p11.toInt * r ^ 2)).tdiv 65536 * r)).tdiv 128
    let sum := off.tdiv 4 + sens.tdiv (2 ^ 24) * r + c5 + e3
    (compP form c tf raw : Int) = 25 * sum % 2 ^ 64 / 2 ^ 40

/-- 00_scope.md R15: rounding to `prec` significant bits is to nearest, ties to even. -/
def Obligations.RoundingIsNearestEven : Prop :=
  ∀ (prec : Nat) (neg : Bool) (num den : Nat), 0 < prec → 0 < num → 0 < den →
    let x := roundRatio prec neg num den
    x.neg = neg ∧ 2 ^ (prec - 1) ≤ x.man ∧ x.man ≤ 2 ^ prec ∧
      2 * |(num : ℚ) / den - x.man * (2 : ℚ) ^ x.exp| ≤ (2 : ℚ) ^ x.exp ∧
      (2 * |(num : ℚ) / den - x.man * (2 : ℚ) ^ x.exp| = (2 : ℚ) ^ x.exp → x.man % 2 = 0)

/-- 41_compensation.md R123: a non-zero integer in hundredths converts to a normal binary32 value (no infinity, NaN or
subnormal, marked derived there), the one got by binary64, division by 100 and rounding; zero converts to +0. -/
def Obligations.ConversionsAreNormal : Prop :=
  hundredths 0 = 0#32 ∧
    ∀ v : Int, v ≠ 0 → |v| < 2 ^ 64 →
      0 < ((hundredths v).extractLsb' 23 8).toNat ∧ ((hundredths v).extractLsb' 23 8).toNat < 255 ∧
        f32Value (hundredths v) = fltValue (f32 (div64 (f64 v) 100))

/-! ### READ_FIFO -/

/-- 42_fifo.md R150, R151: a READ_FIFO that succeeds reads exactly the reported length, never `cap`; with a length of 0
there is no burst read. Nothing but the output buffer, the bus and the response changes. -/
def Obligations.ReadFifoResult : Prop :=
  ∀ (s : State) (cap : Word16) (l0 l1 : Byte) (rest : List BusAnswer), s.inited = true →
    (∀ d : List Byte, s.bus = .bytes [l0, l1] :: .bytes d :: rest →
      d.length = (le16 l0 l1 &&& s.params.fifoLenMask).toNat → 0 < d.length → d.length ≤ cap.toNat →
      ∃ t, exec (.readFifo cap) s = .next t ∧
        t = { s with
          outBuf := t.outBuf
          bus := rest
          trace := s.trace ++ [.busRead s.params.fifoLenReg 2, .busRead s.params.fifoDataReg d.length]
          responses := s.responses ++ [⟨0#8, .length (le16 l0 l1 &&& s.params.fifoLenMask)⟩] } ∧
        ∀ a, Memory.read t.outBuf a = if a < d.length then d[a]? else Memory.read s.outBuf a) ∧
    (s.bus = .bytes [l0, l1] :: rest → le16 l0 l1 &&& s.params.fifoLenMask = 0#16 →
      exec (.readFifo cap) s = .next { s with
        bus := rest
        trace := s.trace ++ [.busRead s.params.fifoLenReg 2]
        responses := s.responses ++ [⟨0#8, .length 0#16⟩] })

/-- 42_fifo.md R153: the host output byte buffer after READ_FIFO, by outcome: unchanged when not initialised, when the
length read fails or the buffer is too small (no burst read is made); every byte unspecified when the burst read
fails; the FIFO bytes on success. The unspecified bytes are draws of a constant without a body (log entry 10), fresh
because the count of draws moves past them: the statement holds whatever they are. -/
def Obligations.ReadFifoBuffer : Prop :=
  ∀ (s : State) (cap : Word16) (l0 l1 : Byte) (rest : List BusAnswer),
    (s.inited = false →
      exec (.readFifo cap) s = .next { s with responses := s.responses ++ [⟨3#8, .none⟩] }) ∧
    (s.inited = true → s.bus = .ioError :: rest →
      exec (.readFifo cap) s = .next { s with
        bus := rest
        trace := s.trace ++ [.busRead s.params.fifoLenReg 2]
        responses := s.responses ++ [⟨1#8, .none⟩] }) ∧
    (s.inited = true → s.bus = .bytes [l0, l1] :: rest →
      cap.toNat < (le16 l0 l1 &&& s.params.fifoLenMask).toNat →
      exec (.readFifo cap) s = .next { s with
        bus := rest
        trace := s.trace ++ [.busRead s.params.fifoLenReg 2]
        responses := s.responses ++ [⟨1#8, .none⟩] }) ∧
    (s.inited = true → s.bus = .bytes [l0, l1] :: .ioError :: rest →
      0 < (le16 l0 l1 &&& s.params.fifoLenMask).toNat →
      (le16 l0 l1 &&& s.params.fifoLenMask).toNat ≤ cap.toNat →
      ∃ t, exec (.readFifo cap) s = .next t ∧
        t = { s with
          outBuf := t.outBuf
          draws := s.draws + cap.toNat
          bus := rest
          trace := s.trace ++ [.busRead s.params.fifoLenReg 2,
            .busRead s.params.fifoDataReg (le16 l0 l1 &&& s.params.fifoLenMask).toNat]
          responses := s.responses ++ [⟨1#8, .none⟩] } ∧
        ∀ a, Memory.read t.outBuf a =
          if a < cap.toNat then some (Config.freeByte (s.draws + a)) else Memory.read s.outBuf a) ∧
    (∀ t len, exec (.readFifo cap) s = .next t → t.responses = s.responses ++ [⟨0#8, .length len⟩] →
      ∃ d : List Byte, d.length = len.toNat ∧ (0 < d.length → .bytes d ∈ s.bus) ∧
        ∀ a, Memory.read t.outBuf a = if a < d.length then d[a]? else Memory.read s.outBuf a) ∧
    ∀ t, exec (.readFifo cap) s = .next t → t.inited = s.inited ∧ t.calib = s.calib ∧ t.tFine = s.tFine

/-! ### FIFO_PARSE and its frames -/

/-- 42_fifo.md R156, R157, 20_memory.md R41: FIFO_PARSE in an initialised block begins the scan at cursor 0 with no
frame, the payload in the host input buffer; nothing else changes. That the scan's passes are steps of their own is
the model's (log entry 6). -/
def Obligations.FifoParseBeginsTheScan : Prop :=
  ∀ (s : State) (cap : Word16) (payload : List Byte), s.inited = true →
    ∃ t, exec (.fifoParse cap payload) s = .next t ∧
      t = { s with inBuf := t.inBuf, scan := some ⟨payload.length, cap.toNat, 0, 0⟩ } ∧
      (∀ a, Memory.read t.inBuf a = payload[a]?) ∧
      ∀ a n, memRead t.inBuf payload.length a n =
        if a + n ≤ payload.length then some ((payload.drop a).take n) else none

/-- 42_fifo.md R166: an empty payload, or a capacity of 0, gives status 0 with frame count 0 and writes nothing. The
input buffer is the request's own payload (20_memory.md R41). That the request is taken off a queue and served in two
steps is the model's (DESIGN CHOICE, log entries 5 and 6). -/
def Obligations.FifoParseEmptyInputs : Prop :=
  ∀ (s : State) (cap : Word16) (payload : List Byte) (rest : List Request),
    s.params.headersDistinct = true → s.inited = true → s.scan = none →
      s.requests = ⟨0x21#8 ++ (0#8 ++ cap : BitVec 24), payload⟩ :: rest → payload.length ≤ 65535 →
      (payload = [] ∨ cap = 0#16) →
      Sys2Proof.core.run 2 s = .next { s with
        requests := rest
        inBuf := Memory.ofList 0 payload
        responses := s.responses ++ [⟨0#8, .frameCount 0#16⟩] }

/-- 42_fifo.md R159, R160, R161: the three single frames write their slot, the next one, and move the cursor by 4; only
a temperature frame writes the fine temperature; every other slot reads as before and nothing else changes. -/
def Obligations.SingleFrameResults : Prop :=
  ∀ (s : State) (sc : Scan) (raw : Raw), s.scan = some sc → sc.count < sc.cap →
    (∃ t, exec (.hdrTime raw) s = .next t ∧
      t = { s with
        frames := t.frames, scan := some { sc with cursor := sc.cursor + 4, count := sc.count + 1 } } ∧
      ∀ k, Memory.read t.frames k =
        if k = sc.count then some ⟨.sensorTime, raw, none⟩ else Memory.read s.frames k) ∧
    ∀ c, s.calib = some c →
      (∃ t, exec (.hdrTemp raw) s = .next t ∧
        t = { s with
          frames := t.frames, tFine := BitVec.ofInt 64 (compT c raw).1
          scan := some { sc with cursor := sc.cursor + 4, count := sc.count + 1 } } ∧
        ∀ k, Memory.read t.frames k =
          if k = sc.count then some ⟨.temperature, raw, some (celsius (compT c raw).2)⟩
          else Memory.read s.frames k) ∧
      (∃ t, exec (.hdrPress raw) s = .next t ∧
        t = { s with
          frames := t.frames, scan := some { sc with cursor := sc.cursor + 4, count := sc.count + 1 } } ∧
        ∀ k, Memory.read t.frames k =
          if k = sc.count then some ⟨.pressure, raw, some (pascals (compP s.params.pd5Form c s.tFine.toInt raw))⟩
          else Memory.read s.frames k)

/-- 42_fifo.md R162: the combined frame under `split` with two slots left, with one slot left (the pressure half is
dropped and the scan stops), and under `skip1`. R162 makes the header under `skip1` an "other" byte, which the decoder
gives as `hdrOther`; that the instruction `hdrTempPress`, never decoded then, acts as one too is the model's (DEDUCED,
log entry 23). -/
def Obligations.CombinedFrameResult : Prop :=
  ∀ (s : State) (sc : Scan) (rawT rawP : Raw), s.scan = some sc → sc.count < sc.cap →
    (∀ c, s.calib = some c → s.params.combined = .split → sc.count + 2 ≤ sc.cap →
      ∃ t, exec (.hdrTempPress rawT rawP) s = .next t ∧
        t = { s with
          frames := t.frames, tFine := BitVec.ofInt 64 (compT c rawT).1
          scan := some { sc with cursor := sc.cursor + 7, count := sc.count + 2 } } ∧
        ∀ k, Memory.read t.frames k =
          if k = sc.count then some ⟨.temperature, rawT, some (celsius (compT c rawT).2)⟩
          else if k = sc.count + 1 then
            some ⟨.pressure, rawP, some (pascals (compP s.params.pd5Form c (compT c rawT).1 rawP))⟩
          else Memory.read s.frames k) ∧
    (∀ c, s.calib = some c → s.params.combined = .split → sc.count + 1 = sc.cap →
      ∃ t, exec (.hdrTempPress rawT rawP) s = .next t ∧
        t = { s with
          frames := t.frames, tFine := BitVec.ofInt 64 (compT c rawT).1, scan := none
          responses := s.responses ++ [⟨0#8, .frameCount (BitVec.ofNat 16 sc.cap)⟩] } ∧
        ∀ k, Memory.read t.frames k =
          if k = sc.count then some ⟨.temperature, rawT, some (celsius (compT c rawT).2)⟩
          else Memory.read s.frames k) ∧
    (s.params.combined = .skip1 →
      exec (.hdrTempPress rawT rawP) s = .next { s with scan := some { sc with cursor := sc.cursor + 1 } })

/-- 42_fifo.md R163, R164: a stop marker ends the scan with status 0 and the count so far; any other byte moves the
cursor by one. Nothing else changes. -/
def Obligations.MarkerAndOtherByteResults : Prop :=
  ∀ (s : State) (sc : Scan), s.scan = some sc → sc.count < sc.cap →
    (∀ i, i = .hdrEmpty ∨ i = .hdrCfgErr →
      exec i s = .next { s with
        scan := none
        responses := s.responses ++ [⟨0#8, .frameCount (BitVec.ofNat 16 sc.count)⟩] }) ∧
    ∀ h, exec (.hdrOther h) s = .next { s with scan := some { sc with cursor := sc.cursor + 1 } }

/-- 42_fifo.md R165: with the capacity reached the scan stops, status 0, before it reads the next header, whatever frame
stands there. Outside a scan there is no frame to execute; that fault is the model's (log entry 8). -/
def Obligations.FramesNeedAScanWithRoom : Prop :=
  ∀ (s : State) (i : Instr), i.isCommand = false →
    (s.scan = none → exec i s = .fault .noScan) ∧
    ∀ sc, s.scan = some sc → sc.cap ≤ sc.count →
      exec i s = .next { s with
        scan := none
        responses := s.responses ++ [⟨0#8, .frameCount (BitVec.ofNat 16 sc.count)⟩] } ∧
      (s.params.headersDistinct = true →
        step s = .next { s with
          scan := none
          responses := s.responses ++ [⟨0#8, .frameCount (BitVec.ofNat 16 sc.count)⟩] })

/-- 42_fifo.md R159, from the bytes of the buffer: the header `HDR_TIME` and three bytes give the frame with the counter
`b0 | b1 << 8 | b2 << 16` and move the cursor by 4; the fine temperature is unchanged. -/
def Obligations.SensorTimeBytes : Prop :=
  ∀ (s : State) (sc : Scan) (b0 b1 b2 : Byte), s.params.headersDistinct = true → s.scan = some sc →
    sc.count < sc.cap → memRead s.inBuf sc.len sc.cursor 4 = some [s.params.hdrTime, b0, b1, b2] →
      ∃ t counter, step s = .next t ∧ counter.toNat = b0.toNat + 2 ^ 8 * b1.toNat + 2 ^ 16 * b2.toNat ∧
        t = { s with
          frames := t.frames, scan := some { sc with cursor := sc.cursor + 4, count := sc.count + 1 } } ∧
        ∀ k, Memory.read t.frames k =
          if k = sc.count then some ⟨.sensorTime, counter, none⟩ else Memory.read s.frames k

/-- 42_fifo.md R160, from the bytes of the buffer. -/
def Obligations.TemperatureBytes : Prop :=
  ∀ (s : State) (sc : Scan) (c : Calib) (b0 b1 b2 : Byte), s.params.headersDistinct = true →
    s.scan = some sc → sc.count < sc.cap → s.calib = some c →
    memRead s.inBuf sc.len sc.cursor 4 = some [s.params.hdrTemp, b0, b1, b2] →
      ∃ t raw, step s = .next t ∧ raw.toNat = b0.toNat + 2 ^ 8 * b1.toNat + 2 ^ 16 * b2.toNat ∧
        t = { s with
          frames := t.frames, tFine := BitVec.ofInt 64 (compT c raw).1
          scan := some { sc with cursor := sc.cursor + 4, count := sc.count + 1 } } ∧
        ∀ k, Memory.read t.frames k =
          if k = sc.count then some ⟨.temperature, raw, some (celsius (compT c raw).2)⟩
          else Memory.read s.frames k

/-- 42_fifo.md R161, from the bytes of the buffer: the pressure frame uses the fine temperature as it stands. -/
def Obligations.PressureBytes : Prop :=
  ∀ (s : State) (sc : Scan) (c : Calib) (b0 b1 b2 : Byte), s.params.headersDistinct = true →
    s.scan = some sc → sc.count < sc.cap → s.calib = some c →
    memRead s.inBuf sc.len sc.cursor 4 = some [s.params.hdrPress, b0, b1, b2] →
      ∃ t raw, step s = .next t ∧ raw.toNat = b0.toNat + 2 ^ 8 * b1.toNat + 2 ^ 16 * b2.toNat ∧
        t = { s with
          frames := t.frames, scan := some { sc with cursor := sc.cursor + 4, count := sc.count + 1 } } ∧
        ∀ k, Memory.read t.frames k =
          if k = sc.count then some ⟨.pressure, raw, some (pascals (compP s.params.pd5Form c s.tFine.toInt raw))⟩
          else Memory.read s.frames k

/-- 42_fifo.md R163, from the bytes of the buffer: only the header byte need be there. -/
def Obligations.StopMarkerBytes : Prop :=
  ∀ (s : State) (sc : Scan) (h : Byte), s.params.headersDistinct = true → s.scan = some sc →
    sc.count < sc.cap → memRead s.inBuf sc.len sc.cursor 1 = some [h] →
      h = s.params.hdrEmpty ∨ h = s.params.hdrCfgErr →
        step s = .next { s with
          scan := none
          responses := s.responses ++ [⟨0#8, .frameCount (BitVec.ofNat 16 sc.count)⟩] }

/-- 42_fifo.md R164, from the bytes of the buffer: any byte the rules R159 to R163 do not name, `HDR_CFG_CHG` among
them. -/
def Obligations.OtherBytesAdvanceByOne : Prop :=
  ∀ (s : State) (sc : Scan) (h : Byte), s.params.headersDistinct = true → s.scan = some sc →
    sc.count < sc.cap → memRead s.inBuf sc.len sc.cursor 1 = some [h] →
      (h = s.params.hdrCfgChg ∨
        h ∉ [s.params.hdrEmpty, s.params.hdrCfgErr, s.params.hdrTime, s.params.hdrPress, s.params.hdrTemp,
          s.params.hdrTempPress] ∨
        (h = s.params.hdrTempPress ∧ s.params.combined = .skip1)) →
        step s = .next { s with scan := some { sc with cursor := sc.cursor + 1 } }

/-- 42_fifo.md R158: a data header whose payload does not fit stops the scan, status 0, no frame; no read reaches past
the buffer. -/
def Obligations.CutFramesStop : Prop :=
  ∀ (s : State) (sc : Scan) (h : Byte), s.params.headersDistinct = true → s.scan = some sc →
    sc.count < sc.cap → memRead s.inBuf sc.len sc.cursor 1 = some [h] →
      ((h ∈ [s.params.hdrTime, s.params.hdrTemp, s.params.hdrPress] ∧ sc.len < sc.cursor + 4) ∨
        (h = s.params.hdrTempPress ∧ s.params.combined = .split ∧ sc.len < sc.cursor + 7)) →
        step s = .next { s with
            scan := none
            responses := s.responses ++ [⟨0#8, .frameCount (BitVec.ofNat 16 sc.count)⟩] } ∧
          ∀ a n, sc.len < a + n → memRead s.inBuf sc.len a n = none

/-- 42_fifo.md R168 (marked derived there), R156, 20_memory.md R42: from every good state a scan ends within one pass
more than the bytes left, with status 0 and a count that is at most the capacity; it fills exactly the slots it
counts, and changes nothing else but the fine temperature. -/
def Obligations.ScanAlwaysEnds : Prop :=
  ∀ (s : State) (sc : Scan), s.Inv → s.params.headersDistinct = true → s.scan = some sc →
    ∃ passes t n, passes ≤ sc.len - sc.cursor + 1 ∧ Sys2Proof.core.run passes s = .next t ∧
      sc.count ≤ n ∧ n ≤ sc.cap ∧
      t = { s with
        scan := none, tFine := t.tFine, frames := t.frames
        responses := s.responses ++ [⟨0#8, .frameCount (BitVec.ofNat 16 n)⟩] } ∧
      ∀ k, ((k < sc.count ∨ n ≤ k) → Memory.read t.frames k = Memory.read s.frames k) ∧
        (sc.count ≤ k → k < n → (Memory.read t.frames k).isSome = true)

/-- 42_fifo.md R157, R167: the passes of a scan compute the decode loop of R157 (`decodeLoop` of Safety.lean, written
from the rule without the model's decoder): the same frames in the same order in slots 0, 1, 2, ..., their count, the
same final fine temperature; every other slot reads as before. -/
def Obligations.ScanMatchesTheDecodeLoop : Prop :=
  ∀ (s : State) (c : Calib) (cap : Nat) (payload : List Byte), s.params.headersDistinct = true →
    s.calib = some c → s.inBuf = Memory.ofList 0 payload → s.scan = some ⟨payload.length, cap, 0, 0⟩ →
      ∃ passes t, passes ≤ payload.length + 1 ∧ Sys2Proof.core.run passes s = .next t ∧ t.scan = none ∧
        (let out := decodeLoop s.params c cap (payload.length + 1) 0 s.tFine.toInt payload
         t.responses = s.responses ++ [⟨0#8, .frameCount (BitVec.ofNat 16 out.1.length)⟩] ∧
          t.tFine.toInt = out.2 ∧
          ∀ k, Memory.read t.frames k = if k < out.1.length then out.1[k]? else Memory.read s.frames k)
end

