-- ==== Sys2Proof/Laws/Bytes.lean ====
section
/-! SUPPORT. Taking a value apart into bytes and assembling it again. -/

namespace Sys2Proof

theorem getLsbD_le24 (b0 b1 b2 : Byte) (i : Nat) :
    (le24 b0 b1 b2).getLsbD i =
      if i < 8 then b0.getLsbD i else if i - 8 < 8 then b1.getLsbD (i - 8) else b2.getLsbD (i - 8 - 8) := by
  change @BitVec.getLsbD (8 + 8 + 8) (b2 ++ b1 ++ b0) i = _
  rw [BitVec.getLsbD_append, BitVec.getLsbD_append]

theorem getLsbD_le16 (b0 b1 : Byte) (i : Nat) :
    (le16 b0 b1).getLsbD i = if i < 8 then b0.getLsbD i else b1.getLsbD (i - 8) := by
  change @BitVec.getLsbD (8 + 8) (b1 ++ b0) i = _
  rw [BitVec.getLsbD_append]

theorem le24_byteOf (v : Raw) : le24 (byteOf v 0) (byteOf v 1) (byteOf v 2) = v := by
  apply BitVec.eq_of_getLsbD_eq
  intro i hi
  simp only [getLsbD_le24, byteOf, BitVec.getLsbD_extractLsb']
  split
  · simp [*]
  · split
    · have h : 8 * 1 + (i - 8) = i := by omega
      simp [*]
    · have h : 8 * 2 + (i - 8 - 8) = i := by omega
      have h' : i - 8 - 8 < 8 := by omega
      simp [h, h']

theorem le16_bytes (v : Word16) : le16 (v.extractLsb' 0 8) (v.extractLsb' 8 8) = v := by
  apply BitVec.eq_of_getLsbD_eq
  intro i hi
  simp only [getLsbD_le16, BitVec.getLsbD_extractLsb']
  split
  · simp [*]
  · have h : 8 + (i - 8) = i := by omega
    have h' : i - 8 < 8 := by omega
    simp [h, h']

theorem le16_low (b0 b1 : Byte) : (le16 b0 b1).extractLsb' 0 8 = b0 := by
  apply BitVec.eq_of_getLsbD_eq
  intro i hi
  simp [getLsbD_le16, hi]

theorem le16_high (b0 b1 : Byte) : (le16 b0 b1).extractLsb' 8 8 = b1 := by
  apply BitVec.eq_of_getLsbD_eq
  intro i hi
  have h : ¬8 + i < 8 := by omega
  simp [getLsbD_le16, hi]

theorem byteOf_le24 (b0 b1 b2 : Byte) :
    byteOf (le24 b0 b1 b2) 0 = b0 ∧ byteOf (le24 b0 b1 b2) 1 = b1 ∧ byteOf (le24 b0 b1 b2) 2 = b2 := by
  refine ⟨?_, ?_, ?_⟩ <;>
  · apply BitVec.eq_of_getLsbD_eq
    intro i hi
    have h1 : ¬8 * 1 + i < 8 := by omega
    have h2 : ¬8 * 2 + i < 8 := by omega
    have h3 : ¬8 * 2 + i - 8 < 8 := by omega
    have h4 : 8 * 1 + i - 8 = i := by omega
    have h5 : 8 * 2 + i - 8 - 8 = i := by omega
    simp only [byteOf, getLsbD_le24, BitVec.getLsbD_extractLsb', hi, h1, h2, h3, h4, h5, if_true, if_false,
      decide_true, Bool.true_and, Nat.mul_zero, Nat.zero_add]

end Sys2Proof
end

