-- ==== Sys2Proof/Laws/State.lean ====
section
/-! SUPPORT. One lemma per field per update of State, true by rfl, so that no proof unfolds a record update. -/

namespace Sys2Proof.Machine

variable (s : State)

/-! ### accept -/

@[simp] theorem State.accept_inited (rest : List Request) :
    (s.accept rest).inited = s.inited := rfl
@[simp] theorem State.accept_calib (rest : List Request) :
    (s.accept rest).calib = s.calib := rfl
@[simp] theorem State.accept_tFine (rest : List Request) :
    (s.accept rest).tFine = s.tFine := rfl
@[simp] theorem State.accept_scan (rest : List Request) :
    (s.accept rest).scan = s.scan := rfl
@[simp] theorem State.accept_inBuf (rest : List Request) :
    (s.accept rest).inBuf = s.inBuf := rfl
@[simp] theorem State.accept_outBuf (rest : List Request) :
    (s.accept rest).outBuf = s.outBuf := rfl
@[simp] theorem State.accept_frames (rest : List Request) :
    (s.accept rest).frames = s.frames := rfl
@[simp] theorem State.accept_requests (rest : List Request) :
    (s.accept rest).requests = rest := rfl
@[simp] theorem State.accept_bus (rest : List Request) :
    (s.accept rest).bus = s.bus := rfl
@[simp] theorem State.accept_trace (rest : List Request) :
    (s.accept rest).trace = s.trace := rfl
@[simp] theorem State.accept_responses (rest : List Request) :
    (s.accept rest).responses = s.responses := rfl
@[simp] theorem State.accept_draws (rest : List Request) :
    (s.accept rest).draws = s.draws := rfl
@[simp] theorem State.accept_params (rest : List Request) :
    (s.accept rest).params = s.params := rfl

/-! ### issue -/

@[simp] theorem State.issue_inited (ev : BusEvent) (rest : List BusAnswer) :
    (s.issue ev rest).inited = s.inited := rfl
@[simp] theorem State.issue_calib (ev : BusEvent) (rest : List BusAnswer) :
    (s.issue ev rest).calib = s.calib := rfl
@[simp] theorem State.issue_tFine (ev : BusEvent) (rest : List BusAnswer) :
    (s.issue ev rest).tFine = s.tFine := rfl
@[simp] theorem State.issue_scan (ev : BusEvent) (rest : List BusAnswer) :
    (s.issue ev rest).scan = s.scan := rfl
@[simp] theorem State.issue_inBuf (ev : BusEvent) (rest : List BusAnswer) :
    (s.issue ev rest).inBuf = s.inBuf := rfl
@[simp] theorem State.issue_outBuf (ev : BusEvent) (rest : List BusAnswer) :
    (s.issue ev rest).outBuf = s.outBuf := rfl
@[simp] theorem State.issue_frames (ev : BusEvent) (rest : List BusAnswer) :
    (s.issue ev rest).frames = s.frames := rfl
@[simp] theorem State.issue_requests (ev : BusEvent) (rest : List BusAnswer) :
    (s.issue ev rest).requests = s.requests := rfl
@[simp] theorem State.issue_bus (ev : BusEvent) (rest : List BusAnswer) :
    (s.issue ev rest).bus = rest := rfl
@[simp] theorem State.issue_trace (ev : BusEvent) (rest : List BusAnswer) :
    (s.issue ev rest).trace = s.trace ++ [ev] := rfl
@[simp] theorem State.issue_responses (ev : BusEvent) (rest : List BusAnswer) :
    (s.issue ev rest).responses = s.responses := rfl
@[simp] theorem State.issue_draws (ev : BusEvent) (rest : List BusAnswer) :
    (s.issue ev rest).draws = s.draws := rfl
@[simp] theorem State.issue_params (ev : BusEvent) (rest : List BusAnswer) :
    (s.issue ev rest).params = s.params := rfl

/-! ### waited -/

@[simp] theorem State.waited_inited :
    (s.waited).inited = s.inited := rfl
@[simp] theorem State.waited_calib :
    (s.waited).calib = s.calib := rfl
@[simp] theorem State.waited_tFine :
    (s.waited).tFine = s.tFine := rfl
@[simp] theorem State.waited_scan :
    (s.waited).scan = s.scan := rfl
@[simp] theorem State.waited_inBuf :
    (s.waited).inBuf = s.inBuf := rfl
@[simp] theorem State.waited_outBuf :
    (s.waited).outBuf = s.outBuf := rfl
@[simp] theorem State.waited_frames :
    (s.waited).frames = s.frames := rfl
@[simp] theorem State.waited_requests :
    (s.waited).requests = s.requests := rfl
@[simp] theorem State.waited_bus :
    (s.waited).bus = s.bus := rfl
@[simp] theorem State.waited_trace :
    (s.waited).trace = s.trace ++ [.waitMs s.params.resetDelayMs] := rfl
@[simp] theorem State.waited_responses :
    (s.waited).responses = s.responses := rfl
@[simp] theorem State.waited_draws :
    (s.waited).draws = s.draws := rfl
@[simp] theorem State.waited_params :
    (s.waited).params = s.params := rfl

/-! ### respond -/

@[simp] theorem State.respond_inited (k : Byte) (r : Results) :
    (s.respond k r).inited = s.inited := rfl
@[simp] theorem State.respond_calib (k : Byte) (r : Results) :
    (s.respond k r).calib = s.calib := rfl
@[simp] theorem State.respond_tFine (k : Byte) (r : Results) :
    (s.respond k r).tFine = s.tFine := rfl
@[simp] theorem State.respond_scan (k : Byte) (r : Results) :
    (s.respond k r).scan = s.scan := rfl
@[simp] theorem State.respond_inBuf (k : Byte) (r : Results) :
    (s.respond k r).inBuf = s.inBuf := rfl
@[simp] theorem State.respond_outBuf (k : Byte) (r : Results) :
    (s.respond k r).outBuf = s.outBuf := rfl
@[simp] theorem State.respond_frames (k : Byte) (r : Results) :
    (s.respond k r).frames = s.frames := rfl
@[simp] theorem State.respond_requests (k : Byte) (r : Results) :
    (s.respond k r).requests = s.requests := rfl
@[simp] theorem State.respond_bus (k : Byte) (r : Results) :
    (s.respond k r).bus = s.bus := rfl
@[simp] theorem State.respond_trace (k : Byte) (r : Results) :
    (s.respond k r).trace = s.trace := rfl
@[simp] theorem State.respond_responses (k : Byte) (r : Results) :
    (s.respond k r).responses = s.responses ++ [⟨k, r⟩] := rfl
@[simp] theorem State.respond_draws (k : Byte) (r : Results) :
    (s.respond k r).draws = s.draws := rfl
@[simp] theorem State.respond_params (k : Byte) (r : Results) :
    (s.respond k r).params = s.params := rfl

/-! ### initialise -/

@[simp] theorem State.initialise_inited (t : Calib) :
    (s.initialise t).inited = true := rfl
@[simp] theorem State.initialise_calib (t : Calib) :
    (s.initialise t).calib = some t := rfl
@[simp] theorem State.initialise_tFine (t : Calib) :
    (s.initialise t).tFine = s.tFine := rfl
@[simp] theorem State.initialise_scan (t : Calib) :
    (s.initialise t).scan = s.scan := rfl
@[simp] theorem State.initialise_inBuf (t : Calib) :
    (s.initialise t).inBuf = s.inBuf := rfl
@[simp] theorem State.initialise_outBuf (t : Calib) :
    (s.initialise t).outBuf = s.outBuf := rfl
@[simp] theorem State.initialise_frames (t : Calib) :
    (s.initialise t).frames = s.frames := rfl
@[simp] theorem State.initialise_requests (t : Calib) :
    (s.initialise t).requests = s.requests := rfl
@[simp] theorem State.initialise_bus (t : Calib) :
    (s.initialise t).bus = s.bus := rfl
@[simp] theorem State.initialise_trace (t : Calib) :
    (s.initialise t).trace = s.trace := rfl
@[simp] theorem State.initialise_responses (t : Calib) :
    (s.initialise t).responses = s.responses := rfl
@[simp] theorem State.initialise_draws (t : Calib) :
    (s.initialise t).draws = s.draws := rfl
@[simp] theorem State.initialise_params (t : Calib) :
    (s.initialise t).params = s.params := rfl

/-! ### deinitialise -/

@[simp] theorem State.deinitialise_inited :
    (s.deinitialise).inited = false := rfl
@[simp] theorem State.deinitialise_calib :
    (s.deinitialise).calib = s.calib := rfl
@[simp] theorem State.deinitialise_tFine :
    (s.deinitialise).tFine = s.tFine := rfl
@[simp] theorem State.deinitialise_scan :
    (s.deinitialise).scan = s.scan := rfl
@[simp] theorem State.deinitialise_inBuf :
    (s.deinitialise).inBuf = s.inBuf := rfl
@[simp] theorem State.deinitialise_outBuf :
    (s.deinitialise).outBuf = s.outBuf := rfl
@[simp] theorem State.deinitialise_frames :
    (s.deinitialise).frames = s.frames := rfl
@[simp] theorem State.deinitialise_requests :
    (s.deinitialise).requests = s.requests := rfl
@[simp] theorem State.deinitialise_bus :
    (s.deinitialise).bus = s.bus := rfl
@[simp] theorem State.deinitialise_trace :
    (s.deinitialise).trace = s.trace := rfl
@[simp] theorem State.deinitialise_responses :
    (s.deinitialise).responses = s.responses := rfl
@[simp] theorem State.deinitialise_draws :
    (s.deinitialise).draws = s.draws := rfl
@[simp] theorem State.deinitialise_params :
    (s.deinitialise).params = s.params := rfl

/-! ### setTFine -/

@[simp] theorem State.setTFine_inited (tf : Int) :
    (s.setTFine tf).inited = s.inited := rfl
@[simp] theorem State.setTFine_calib (tf : Int) :
    (s.setTFine tf).calib = s.calib := rfl
@[simp] theorem State.setTFine_tFine (tf : Int) :
    (s.setTFine tf).tFine = BitVec.ofInt 64 tf := rfl
@[simp] theorem State.setTFine_scan (tf : Int) :
    (s.setTFine tf).scan = s.scan := rfl
@[simp] theorem State.setTFine_inBuf (tf : Int) :
    (s.setTFine tf).inBuf = s.inBuf := rfl
@[simp] theorem State.setTFine_outBuf (tf : Int) :
    (s.setTFine tf).outBuf = s.outBuf := rfl
@[simp] theorem State.setTFine_frames (tf : Int) :
    (s.setTFine tf).frames = s.frames := rfl
@[simp] theorem State.setTFine_requests (tf : Int) :
    (s.setTFine tf).requests = s.requests := rfl
@[simp] theorem State.setTFine_bus (tf : Int) :
    (s.setTFine tf).bus = s.bus := rfl
@[simp] theorem State.setTFine_trace (tf : Int) :
    (s.setTFine tf).trace = s.trace := rfl
@[simp] theorem State.setTFine_responses (tf : Int) :
    (s.setTFine tf).responses = s.responses := rfl
@[simp] theorem State.setTFine_draws (tf : Int) :
    (s.setTFine tf).draws = s.draws := rfl
@[simp] theorem State.setTFine_params (tf : Int) :
    (s.setTFine tf).params = s.params := rfl

/-! ### fillOut -/

@[simp] theorem State.fillOut_inited (bs : List Byte) :
    (s.fillOut bs).inited = s.inited := rfl
@[simp] theorem State.fillOut_calib (bs : List Byte) :
    (s.fillOut bs).calib = s.calib := rfl
@[simp] theorem State.fillOut_tFine (bs : List Byte) :
    (s.fillOut bs).tFine = s.tFine := rfl
@[simp] theorem State.fillOut_scan (bs : List Byte) :
    (s.fillOut bs).scan = s.scan := rfl
@[simp] theorem State.fillOut_inBuf (bs : List Byte) :
    (s.fillOut bs).inBuf = s.inBuf := rfl
@[simp] theorem State.fillOut_outBuf (bs : List Byte) :
    (s.fillOut bs).outBuf = Memory.writeAll s.outBuf 0 bs := rfl
@[simp] theorem State.fillOut_frames (bs : List Byte) :
    (s.fillOut bs).frames = s.frames := rfl
@[simp] theorem State.fillOut_requests (bs : List Byte) :
    (s.fillOut bs).requests = s.requests := rfl
@[simp] theorem State.fillOut_bus (bs : List Byte) :
    (s.fillOut bs).bus = s.bus := rfl
@[simp] theorem State.fillOut_trace (bs : List Byte) :
    (s.fillOut bs).trace = s.trace := rfl
@[simp] theorem State.fillOut_responses (bs : List Byte) :
    (s.fillOut bs).responses = s.responses := rfl
@[simp] theorem State.fillOut_draws (bs : List Byte) :
    (s.fillOut bs).draws = s.draws := rfl
@[simp] theorem State.fillOut_params (bs : List Byte) :
    (s.fillOut bs).params = s.params := rfl

/-! ### spoilOut -/

@[simp] theorem State.spoilOut_inited (n : Nat) :
    (s.spoilOut n).inited = s.inited := rfl
@[simp] theorem State.spoilOut_calib (n : Nat) :
    (s.spoilOut n).calib = s.calib := rfl
@[simp] theorem State.spoilOut_tFine (n : Nat) :
    (s.spoilOut n).tFine = s.tFine := rfl
@[simp] theorem State.spoilOut_scan (n : Nat) :
    (s.spoilOut n).scan = s.scan := rfl
@[simp] theorem State.spoilOut_inBuf (n : Nat) :
    (s.spoilOut n).inBuf = s.inBuf := rfl
@[simp] theorem State.spoilOut_outBuf (n : Nat) :
    (s.spoilOut n).outBuf = Memory.writeAll s.outBuf 0 (freeBytes s.draws n) := rfl
@[simp] theorem State.spoilOut_frames (n : Nat) :
    (s.spoilOut n).frames = s.frames := rfl
@[simp] theorem State.spoilOut_requests (n : Nat) :
    (s.spoilOut n).requests = s.requests := rfl
@[simp] theorem State.spoilOut_bus (n : Nat) :
    (s.spoilOut n).bus = s.bus := rfl
@[simp] theorem State.spoilOut_trace (n : Nat) :
    (s.spoilOut n).trace = s.trace := rfl
@[simp] theorem State.spoilOut_responses (n : Nat) :
    (s.spoilOut n).responses = s.responses := rfl
@[simp] theorem State.spoilOut_draws (n : Nat) :
    (s.spoilOut n).draws = s.draws + n := rfl
@[simp] theorem State.spoilOut_params (n : Nat) :
    (s.spoilOut n).params = s.params := rfl

/-! ### beginScan -/

@[simp] theorem State.beginScan_inited (n : Nat) (bs : List Byte) :
    (s.beginScan n bs).inited = s.inited := rfl
@[simp] theorem State.beginScan_calib (n : Nat) (bs : List Byte) :
    (s.beginScan n bs).calib = s.calib := rfl
@[simp] theorem State.beginScan_tFine (n : Nat) (bs : List Byte) :
    (s.beginScan n bs).tFine = s.tFine := rfl
@[simp] theorem State.beginScan_scan (n : Nat) (bs : List Byte) :
    (s.beginScan n bs).scan = some ⟨bs.length, n, 0, 0⟩ := rfl
@[simp] theorem State.beginScan_inBuf (n : Nat) (bs : List Byte) :
    (s.beginScan n bs).inBuf = Memory.ofList 0 bs := rfl
@[simp] theorem State.beginScan_outBuf (n : Nat) (bs : List Byte) :
    (s.beginScan n bs).outBuf = s.outBuf := rfl
@[simp] theorem State.beginScan_frames (n : Nat) (bs : List Byte) :
    (s.beginScan n bs).frames = s.frames := rfl
@[simp] theorem State.beginScan_requests (n : Nat) (bs : List Byte) :
    (s.beginScan n bs).requests = s.requests := rfl
@[simp] theorem State.beginScan_bus (n : Nat) (bs : List Byte) :
    (s.beginScan n bs).bus = s.bus := rfl
@[simp] theorem State.beginScan_trace (n : Nat) (bs : List Byte) :
    (s.beginScan n bs).trace = s.trace := rfl
@[simp] theorem State.beginScan_responses (n : Nat) (bs : List Byte) :
    (s.beginScan n bs).responses = s.responses := rfl
@[simp] theorem State.beginScan_draws (n : Nat) (bs : List Byte) :
    (s.beginScan n bs).draws = s.draws := rfl
@[simp] theorem State.beginScan_params (n : Nat) (bs : List Byte) :
    (s.beginScan n bs).params = s.params := rfl

/-! ### moveScan -/

@[simp] theorem State.moveScan_inited (sc : Scan) (n : Nat) :
    (s.moveScan sc n).inited = s.inited := rfl
@[simp] theorem State.moveScan_calib (sc : Scan) (n : Nat) :
    (s.moveScan sc n).calib = s.calib := rfl
@[simp] theorem State.moveScan_tFine (sc : Scan) (n : Nat) :
    (s.moveScan sc n).tFine = s.tFine := rfl
@[simp] theorem State.moveScan_scan (sc : Scan) (n : Nat) :
    (s.moveScan sc n).scan = some { sc with cursor := sc.cursor + n } := rfl
@[simp] theorem State.moveScan_inBuf (sc : Scan) (n : Nat) :
    (s.moveScan sc n).inBuf = s.inBuf := rfl
@[simp] theorem State.moveScan_outBuf (sc : Scan) (n : Nat) :
    (s.moveScan sc n).outBuf = s.outBuf := rfl
@[simp] theorem State.moveScan_frames (sc : Scan) (n : Nat) :
    (s.moveScan sc n).frames = s.frames := rfl
@[simp] theorem State.moveScan_requests (sc : Scan) (n : Nat) :
    (s.moveScan sc n).requests = s.requests := rfl
@[simp] theorem State.moveScan_bus (sc : Scan) (n : Nat) :
    (s.moveScan sc n).bus = s.bus := rfl
@[simp] theorem State.moveScan_trace (sc : Scan) (n : Nat) :
    (s.moveScan sc n).trace = s.trace := rfl
@[simp] theorem State.moveScan_responses (sc : Scan) (n : Nat) :
    (s.moveScan sc n).responses = s.responses := rfl
@[simp] theorem State.moveScan_draws (sc : Scan) (n : Nat) :
    (s.moveScan sc n).draws = s.draws := rfl
@[simp] theorem State.moveScan_params (sc : Scan) (n : Nat) :
    (s.moveScan sc n).params = s.params := rfl

/-! ### emit -/

@[simp] theorem State.emit_inited (sc : Scan) (n : Nat) (f : Frame) :
    (s.emit sc n f).inited = s.inited := rfl
@[simp] theorem State.emit_calib (sc : Scan) (n : Nat) (f : Frame) :
    (s.emit sc n f).calib = s.calib := rfl
@[simp] theorem State.emit_tFine (sc : Scan) (n : Nat) (f : Frame) :
    (s.emit sc n f).tFine = s.tFine := rfl
@[simp] theorem State.emit_scan (sc : Scan) (n : Nat) (f : Frame) :
    (s.emit sc n f).scan = some { sc with cursor := sc.cursor + n, count := sc.count + 1 } := rfl
@[simp] theorem State.emit_inBuf (sc : Scan) (n : Nat) (f : Frame) :
    (s.emit sc n f).inBuf = s.inBuf := rfl
@[simp] theorem State.emit_outBuf (sc : Scan) (n : Nat) (f : Frame) :
    (s.emit sc n f).outBuf = s.outBuf := rfl
@[simp] theorem State.emit_frames (sc : Scan) (n : Nat) (f : Frame) :
    (s.emit sc n f).frames = Memory.write s.frames sc.count f := rfl
@[simp] theorem State.emit_requests (sc : Scan) (n : Nat) (f : Frame) :
    (s.emit sc n f).requests = s.requests := rfl
@[simp] theorem State.emit_bus (sc : Scan) (n : Nat) (f : Frame) :
    (s.emit sc n f).bus = s.bus := rfl
@[simp] theorem State.emit_trace (sc : Scan) (n : Nat) (f : Frame) :
    (s.emit sc n f).trace = s.trace := rfl
@[simp] theorem State.emit_responses (sc : Scan) (n : Nat) (f : Frame) :
    (s.emit sc n f).responses = s.responses := rfl
@[simp] theorem State.emit_draws (sc : Scan) (n : Nat) (f : Frame) :
    (s.emit sc n f).draws = s.draws := rfl
@[simp] theorem State.emit_params (sc : Scan) (n : Nat) (f : Frame) :
    (s.emit sc n f).params = s.params := rfl

/-! ### endScan -/

@[simp] theorem State.endScan_inited (sc : Scan) :
    (s.endScan sc).inited = s.inited := rfl
@[simp] theorem State.endScan_calib (sc : Scan) :
    (s.endScan sc).calib = s.calib := rfl
@[simp] theorem State.endScan_tFine (sc : Scan) :
    (s.endScan sc).tFine = s.tFine := rfl
@[simp] theorem State.endScan_scan (sc : Scan) :
    (s.endScan sc).scan = none := rfl
@[simp] theorem State.endScan_inBuf (sc : Scan) :
    (s.endScan sc).inBuf = s.inBuf := rfl
@[simp] theorem State.endScan_outBuf (sc : Scan) :
    (s.endScan sc).outBuf = s.outBuf := rfl
@[simp] theorem State.endScan_frames (sc : Scan) :
    (s.endScan sc).frames = s.frames := rfl
@[simp] theorem State.endScan_requests (sc : Scan) :
    (s.endScan sc).requests = s.requests := rfl
@[simp] theorem State.endScan_bus (sc : Scan) :
    (s.endScan sc).bus = s.bus := rfl
@[simp] theorem State.endScan_trace (sc : Scan) :
    (s.endScan sc).trace = s.trace := rfl
@[simp] theorem State.endScan_responses (sc : Scan) :
    (s.endScan sc).responses = s.responses ++ [⟨statusOk, .frameCount (BitVec.ofNat 16 sc.count)⟩] := rfl
@[simp] theorem State.endScan_draws (sc : Scan) :
    (s.endScan sc).draws = s.draws := rfl
@[simp] theorem State.endScan_params (sc : Scan) :
    (s.endScan sc).params = s.params := rfl

end Sys2Proof.Machine
end

