-- ==== Sys2Proof/Laws/Ops.lean ====
section
/-! SUPPORT. What each shared operation can do: forward lemmas for a bus whose answer is known, and one
inversion lemma per operation ("if it answers next t, then one of these cases holds"). -/

namespace Sys2Proof.Machine

variable {s t : State}

@[simp] theorem complete_eq_next (r : Results) :
    complete r s = .next t ↔ s.respond statusOk r = t := by simp [complete]

@[simp] theorem raise_eq_next (k : Byte) : raise k s = .next t ↔ s.respond k .none = t := by
  simp [raise]

theorem gated_of_inited (h : s.inited = true) (body : Result) : gated s body = body := by
  simp [gated, h]

theorem gated_of_not_inited (h : s.inited = false) (body : Result) :
    gated s body = .next (s.respond statusNotReady .none) := by simp [gated, raise, h]

theorem gated_next {body : Result} (h : gated s body = .next t) :
    (s.inited = false ∧ t = s.respond statusNotReady .none) ∨ (s.inited = true ∧ body = .next t) := by
  cases hi : s.inited
  · rw [gated_of_not_inited hi] at h
    exact .inl ⟨rfl, by injection h with h; exact h.symm⟩
  · rw [gated_of_inited hi] at h
    exact .inr ⟨rfl, h⟩

theorem gated_fault {body : Result} {r : Fault} (h : gated s body = .fault r) :
    s.inited = true ∧ body = .fault r := by
  cases hi : s.inited
  · rw [gated_of_not_inited hi] at h; cases h
  · rw [gated_of_inited hi] at h; exact ⟨rfl, h⟩

theorem withCalib_of_some {table : Calib} (h : s.calib = some table) (body : Calib → Result) :
    withCalib s body = body table := by simp [withCalib, h]

theorem withCalib_next {body : Calib → Result} (h : withCalib s body = .next t) :
    ∃ table, s.calib = some table ∧ body table = .next t := by
  cases hc : s.calib with
  | none => simp [withCalib, hc] at h
  | some table => exact ⟨table, rfl, by simpa [withCalib, hc] using h⟩

theorem withCalib_fault {body : Calib → Result} {r : Fault} (h : withCalib s body = .fault r) :
    (s.calib = none ∧ r = .calibAbsent) ∨ ∃ table, s.calib = some table ∧ body table = .fault r := by
  cases hc : s.calib with
  | none => simp only [withCalib, hc] at h; cases h; exact .inl ⟨rfl, rfl⟩
  | some table => exact .inr ⟨table, rfl, by simpa [withCalib, hc] using h⟩

theorem transact_of_answer {ev : BusEvent} {a : BusAnswer} {rest : List BusAnswer} (h : s.bus = a :: rest)
    (body : BusAnswer → State → Result) : transact ev s body = body a (s.issue ev rest) := by
  simp [transact, h]

theorem transact_of_no_answer (h : s.bus = []) (ev : BusEvent) (body : BusAnswer → State → Result) :
    transact ev s body = .fault .busNeverAnswers := by simp [transact, h]

theorem transact_next {ev : BusEvent} {body : BusAnswer → State → Result}
    (h : transact ev s body = .next t) :
    ∃ a rest, s.bus = a :: rest ∧ body a (s.issue ev rest) = .next t := by
  cases hb : s.bus with
  | nil => simp [transact, hb] at h
  | cons a rest => exact ⟨a, rest, rfl, by simpa [transact, hb] using h⟩

theorem transact_fault {ev : BusEvent} {body : BusAnswer → State → Result} {r : Fault}
    (h : transact ev s body = .fault r) :
    (s.bus = [] ∧ r = .busNeverAnswers) ∨ ∃ a rest, s.bus = a :: rest ∧ body a (s.issue ev rest) = .fault r := by
  cases hb : s.bus with
  | nil => rw [transact_of_no_answer hb] at h; cases h; exact .inl ⟨rfl, rfl⟩
  | cons a rest => exact .inr ⟨a, rest, rfl, by rwa [transact_of_answer hb] at h⟩

theorem busDo_of_ok {ev : BusEvent} {rest : List BusAnswer} (h : s.bus = .ok :: rest)
    (body : Bool → State → Result) : busDo ev s body = body true (s.issue ev rest) := by
  simp [busDo, transact, h]

theorem busDo_of_ioError {ev : BusEvent} {rest : List BusAnswer} (h : s.bus = .ioError :: rest)
    (body : Bool → State → Result) : busDo ev s body = body false (s.issue ev rest) := by
  simp [busDo, transact, h]

theorem busDo_next {ev : BusEvent} {body : Bool → State → Result} (h : busDo ev s body = .next t) :
    ∃ rest, (s.bus = .ok :: rest ∧ body true (s.issue ev rest) = .next t) ∨
      (s.bus = .ioError :: rest ∧ body false (s.issue ev rest) = .next t) := by
  obtain ⟨a, rest, hb, h⟩ := transact_next h
  cases a with
  | ok => exact ⟨rest, .inl ⟨hb, h⟩⟩
  | ioError => exact ⟨rest, .inr ⟨hb, h⟩⟩
  | bytes bs => cases h

theorem busDo_fault {ev : BusEvent} {body : Bool → State → Result} {r : Fault}
    (h : busDo ev s body = .fault r) :
    r = .busNeverAnswers ∨ ∃ b rest, body b (s.issue ev rest) = .fault r := by
  obtain ⟨-, hr⟩ | ⟨a, rest, -, h⟩ := transact_fault h
  · exact .inl hr
  · cases a with
    | ok => exact .inr ⟨true, rest, h⟩
    | ioError => exact .inr ⟨false, rest, h⟩
    | bytes bs => cases h

theorem busRead_of_bytes {reg : Byte} {n : Nat} {bs : List Byte} {rest : List BusAnswer}
    (h : s.bus = .bytes bs :: rest) (hn : bs.length = n) (body : Option (List Byte) → State → Result) :
    busRead reg n s body = body (some bs) (s.issue (.busRead reg n) rest) := by
  simp [busRead, transact, h, hn]

theorem busRead_of_ioError {reg : Byte} {n : Nat} {rest : List BusAnswer} (h : s.bus = .ioError :: rest)
    (body : Option (List Byte) → State → Result) :
    busRead reg n s body = body none (s.issue (.busRead reg n) rest) := by
  simp [busRead, transact, h]

theorem busRead_next {reg : Byte} {n : Nat} {body : Option (List Byte) → State → Result}
    (h : busRead reg n s body = .next t) :
    ∃ rest, (∃ bs, s.bus = .bytes bs :: rest ∧ bs.length = n ∧
        body (some bs) (s.issue (.busRead reg n) rest) = .next t) ∨
      (s.bus = .ioError :: rest ∧ body none (s.issue (.busRead reg n) rest) = .next t) := by
  obtain ⟨a, rest, hb, h⟩ := transact_next h
  cases a with
  | ok => cases h
  | ioError => exact ⟨rest, .inr ⟨hb, h⟩⟩
  | bytes bs =>
    by_cases hn : bs.length = n
    · simp only [hn, if_true] at h
      exact ⟨rest, .inl ⟨bs, hb, hn, h⟩⟩
    · simp only [hn, if_false] at h
      cases h

theorem busRead_fault {reg : Byte} {n : Nat} {body : Option (List Byte) → State → Result} {r : Fault}
    (h : busRead reg n s body = .fault r) :
    r = .busNeverAnswers ∨ ∃ bs rest, body bs (s.issue (.busRead reg n) rest) = .fault r := by
  obtain ⟨-, hr⟩ | ⟨a, rest, -, h⟩ := transact_fault h
  · exact .inl hr
  · cases a with
    | ok => cases h
    | ioError => exact .inr ⟨none, rest, h⟩
    | bytes bs =>
      dsimp only at h
      split at h
      · exact .inr ⟨some bs, rest, h⟩
      · cases h

theorem closeAndRaise_fault {k : Byte} {r : Fault} (h : closeAndRaise k s = .fault r) : r = .busNeverAnswers := by
  obtain hr | ⟨b, rest, h⟩ := busDo_fault h
  · exact hr
  · cases h

theorem closeAndRaise_next {k : Byte} (h : closeAndRaise k s = .next t) :
    ∃ rest, (s.bus = .ok :: rest ∨ s.bus = .ioError :: rest) ∧
      t = (s.issue .busClose rest).respond k .none := by
  obtain ⟨rest, ⟨hb, h⟩ | ⟨hb, h⟩⟩ := busDo_next h
  · exact ⟨rest, .inl hb, ((raise_eq_next k).mp h).symm⟩
  · exact ⟨rest, .inr hb, ((raise_eq_next k).mp h).symm⟩

theorem onScan_of_room {sc : Scan} (h : s.scan = some sc) (hr : sc.count < sc.cap) (body : Scan → Result) :
    onScan s body = body sc := by
  simp [onScan, h, Nat.not_le.mpr hr]

theorem onScan_of_full {sc : Scan} (h : s.scan = some sc) (hr : sc.cap ≤ sc.count) (body : Scan → Result) :
    onScan s body = .next (s.endScan sc) := by
  simp [onScan, h, hr]

theorem onScan_of_none (h : s.scan = none) (body : Scan → Result) :
    onScan s body = .fault .noScan := by
  simp [onScan, h]

theorem onScan_fault {body : Scan → Result} {r : Fault} (h : onScan s body = .fault r) :
    (s.scan = none ∧ r = .noScan) ∨ ∃ sc, s.scan = some sc ∧ body sc = .fault r := by
  cases hs : s.scan with
  | none => rw [onScan_of_none hs] at h; cases h; exact .inl ⟨rfl, rfl⟩
  | some sc =>
    refine .inr ⟨sc, rfl, ?_⟩
    by_cases hr : sc.cap ≤ sc.count
    · rw [onScan_of_full hs hr] at h; cases h
    · rwa [onScan_of_room hs (by omega)] at h

theorem onScan_next {body : Scan → Result} (h : onScan s body = .next t) :
    ∃ sc, s.scan = some sc ∧ ((sc.cap ≤ sc.count ∧ t = s.endScan sc) ∨
      (sc.count < sc.cap ∧ body sc = .next t)) := by
  cases hs : s.scan with
  | none => rw [onScan_of_none hs] at h; cases h
  | some sc =>
    refine ⟨sc, rfl, ?_⟩
    by_cases hr : sc.cap ≤ sc.count
    · rw [onScan_of_full hs hr] at h
      exact .inl ⟨hr, by injection h with h; exact h.symm⟩
    · rw [onScan_of_room hs (by omega)] at h
      exact .inr ⟨by omega, h⟩

end Sys2Proof.Machine
end

