-- ==== Sys2Proof/Laws/Exec.lean ====
section
/-! SUPPORT. What an instruction that answers a next state can have done, said once: one case per way through its
meaning; and the ways it can fault. Proofs about every instruction take these cases instead of unfolding the
meanings. -/

namespace Sys2Proof.Machine

/-- The next states of a FIFO frame. -/
inductive FrameEffect (s : State) : Instr → State → Prop
  | full {i : Instr} {sc : Scan} (hs : s.scan = some sc) (hr : sc.cap ≤ sc.count) :
      FrameEffect s i (s.endScan sc)
  | stop {i : Instr} {sc : Scan} (hs : s.scan = some sc) (hr : sc.count < sc.cap)
      (hi : i = .hdrEmpty ∨ i = .hdrCfgErr) : FrameEffect s i (s.endScan sc)
  | skip {i : Instr} {sc : Scan} (hs : s.scan = some sc) (hr : sc.count < sc.cap)
      (hi : (∃ h, i = .hdrOther h) ∨ ∃ rawT rawP, i = .hdrTempPress rawT rawP ∧ s.params.combined = .skip1) :
      FrameEffect s i (s.moveScan sc 1)
  | time {counter : Raw} {sc : Scan} (hs : s.scan = some sc) (hr : sc.count < sc.cap) :
      FrameEffect s (.hdrTime counter) (s.emit sc 4 ⟨.sensorTime, counter, none⟩)
  | press {raw : Raw} {sc : Scan} {c : Calib} (hs : s.scan = some sc) (hr : sc.count < sc.cap)
      (hc : s.calib = some c) : FrameEffect s (.hdrPress raw) (emitPress c raw sc 4 s)
  | temp {raw : Raw} {sc : Scan} {c : Calib} (hs : s.scan = some sc) (hr : sc.count < sc.cap)
      (hc : s.calib = some c) : FrameEffect s (.hdrTemp raw) (emitTemp c raw sc 4 s)
  | halfPair {rawT rawP : Raw} {sc : Scan} {c : Calib} (hs : s.scan = some sc) (hr : sc.count < sc.cap)
      (hc : s.calib = some c) (hp : s.params.combined = .split) (hfull : sc.cap ≤ sc.count + 1) :
      FrameEffect s (.hdrTempPress rawT rawP)
        ((emitTemp c rawT sc 0 s).endScan { sc with count := sc.count + 1 })
  | pair {rawT rawP : Raw} {sc : Scan} {c : Calib} (hs : s.scan = some sc) (hr : sc.count < sc.cap)
      (hc : s.calib = some c) (hp : s.params.combined = .split) (hroom : sc.count + 1 < sc.cap) :
      FrameEffect s (.hdrTempPress rawT rawP)
        (emitPress c rawP { sc with count := sc.count + 1 } 7 (emitTemp c rawT sc 0 s))

theorem skipByte_next {s t : State} {i : Instr} (h : skipByte s = .next t)
    (hi : (∃ h, i = .hdrOther h) ∨ ∃ rawT rawP, i = .hdrTempPress rawT rawP ∧ s.params.combined = .skip1) :
    FrameEffect s i t := by
  obtain ⟨sc, hs, ⟨hr, rfl⟩ | ⟨hr, h⟩⟩ := onScan_next h
  · exact .full hs hr
  · cases h
    exact .skip hs hr hi

theorem stopMarker_next {s t : State} {i : Instr} (h : stopMarker s = .next t)
    (hi : i = .hdrEmpty ∨ i = .hdrCfgErr) : FrameEffect s i t := by
  obtain ⟨sc, hs, ⟨hr, rfl⟩ | ⟨hr, h⟩⟩ := onScan_next h
  · exact .full hs hr
  · cases h
    exact .stop hs hr hi

theorem splitFrame_next {s t : State} {rawT rawP : Raw} (hp : s.params.combined = .split)
    (h : splitFrame rawT rawP s = .next t) : FrameEffect s (.hdrTempPress rawT rawP) t := by
  obtain ⟨sc, hs, ⟨hr, rfl⟩ | ⟨hr, h⟩⟩ := onScan_next h
  · exact .full hs hr
  · obtain ⟨c, hc, h⟩ := withCalib_next h
    dsimp only at h
    split at h
    · next hfull => cases h; exact .halfPair hs hr hc hp hfull
    · next hroom => cases h; exact .pair hs hr hc hp (by omega)

theorem exec_frame_next {i : Instr} {s t : State} (hi : i.isCommand = false) (h : exec i s = .next t) :
    FrameEffect s i t := by
  cases i
  case hdrEmpty => exact stopMarker_next h (.inl rfl)
  case hdrCfgErr => exact stopMarker_next h (.inr rfl)
  case hdrTime counter =>
    obtain ⟨sc, hs, ⟨hr, rfl⟩ | ⟨hr, h⟩⟩ := onScan_next h
    · exact .full hs hr
    · cases h; exact .time hs hr
  case hdrPress raw =>
    obtain ⟨sc, hs, ⟨hr, rfl⟩ | ⟨hr, h⟩⟩ := onScan_next h
    · exact .full hs hr
    · obtain ⟨c, hc, h⟩ := withCalib_next h
      cases h; exact .press hs hr hc
  case hdrTemp raw =>
    obtain ⟨sc, hs, ⟨hr, rfl⟩ | ⟨hr, h⟩⟩ := onScan_next h
    · exact .full hs hr
    · obtain ⟨c, hc, h⟩ := withCalib_next h
      cases h; exact .temp hs hr hc
  case hdrTempPress rawT rawP =>
    cases hp : s.params.combined with
    | split => exact splitFrame_next hp (by simpa only [exec, execHdrTempPress, hp] using h)
    | skip1 =>
      exact skipByte_next (by simpa only [exec, execHdrTempPress, hp] using h) (.inr ⟨rawT, rawP, rfl, hp⟩)
  case hdrOther header => exact skipByte_next h (.inl ⟨header, rfl⟩)
  all_goals cases hi

/-- INIT's transactions up to the calibration read, and the wait (40_init_calibration.md R100). -/
def identified (s : State) (r1 r2 : List BusAnswer) : State :=
  (s.issue .busOpen r1).issue (.busRead s.params.chipIdReg 1) r2

/-- INIT's state once the soft-reset write has its answer. -/
def resetWritten (s : State) (r1 r2 r3 : List BusAnswer) : State :=
  (identified s r1 r2).issue (.busWrite s.params.cmdReg [s.params.cmdSoftReset]) r3

/-- INIT's state once the calibration read has its answer. -/
def calibRead (s : State) (r1 r2 r3 r4 : List BusAnswer) : State :=
  (resetWritten s r1 r2 r3).waited.issue (.busRead s.params.calibReg calibLen) r4

/-- The next states of INIT. -/
inductive InitEffect (s : State) : State → Prop
  | notLinked (hl : s.params.linked = false) : InitEffect s (s.respond statusNotReady .none)
  | openFails {r1 : List BusAnswer} (hl : s.params.linked = true) (h1 : s.bus = .ioError :: r1) :
      InitEffect s ((s.issue .busOpen r1).respond statusFailed .none)
  | identity {x : BusAnswer} {r1 r2 r3 : List BusAnswer} (hl : s.params.linked = true)
      (h1 : s.bus = .ok :: r1) (h2 : r1 = x :: r2)
      (hx : x = .ioError ∨ ∃ b, b ≠ s.params.chipId ∧ x = .bytes [b])
      (h3 : r2 = .ok :: r3 ∨ r2 = .ioError :: r3) :
      InitEffect s (((identified s r1 r2).issue .busClose r3).respond statusIdentity .none)
  | resetFails {r1 r2 r3 r4 : List BusAnswer} (hl : s.params.linked = true) (h1 : s.bus = .ok :: r1)
      (h2 : r1 = .bytes [s.params.chipId] :: r2) (h3 : r2 = .ioError :: r3)
      (h4 : r3 = .ok :: r4 ∨ r3 = .ioError :: r4) :
      InitEffect s (((resetWritten s r1 r2 r3).issue .busClose r4).respond statusReset .none)
  | calibFails {r1 r2 r3 r4 r5 : List BusAnswer} (hl : s.params.linked = true) (h1 : s.bus = .ok :: r1)
      (h2 : r1 = .bytes [s.params.chipId] :: r2) (h3 : r2 = .ok :: r3) (h4 : r3 = .ioError :: r4)
      (h5 : r4 = .ok :: r5 ∨ r4 = .ioError :: r5) :
      InitEffect s (((calibRead s r1 r2 r3 r4).issue .busClose r5).respond statusCalib .none)
  | success {c : List Byte} {r1 r2 r3 r4 : List BusAnswer} (hl : s.params.linked = true)
      (h1 : s.bus = .ok :: r1) (h2 : r1 = .bytes [s.params.chipId] :: r2) (h3 : r2 = .ok :: r3)
      (h4 : r3 = .bytes c :: r4) (hc : c.length = 21) :
      InitEffect s (((calibRead s r1 r2 r3 r4).initialise (unpack c)).respond statusOk .none)

theorem exec_init_next {s t : State} (h : exec .init s = .next t) : InitEffect s t := by
  simp only [exec, execInit] at h
  split at h
  · next hl =>
    obtain ⟨r1, ⟨h1, h⟩ | ⟨h1, h⟩⟩ := busDo_next h
    · simp only [if_true] at h
      obtain ⟨r2, ⟨id, h2, hid, h⟩ | ⟨h2, h⟩⟩ := busRead_next h
      · split at h
        · next hok =>
          obtain rfl : id = [s.params.chipId] := by simpa using hok
          obtain ⟨r3, ⟨h3, h⟩ | ⟨h3, h⟩⟩ := busDo_next h
          · simp only [if_true] at h
            obtain ⟨r4, ⟨c, h4, hc, h⟩ | ⟨h4, h⟩⟩ := busRead_next h
            · obtain rfl := (complete_eq_next _).mp h
              exact .success hl h1 h2 h3 h4 hc
            · obtain ⟨r5, h5, rfl⟩ := closeAndRaise_next h
              exact .calibFails hl h1 h2 h3 h4 h5
          · simp only [Bool.false_eq_true, if_false] at h
            obtain ⟨r4, h4, rfl⟩ := closeAndRaise_next h
            exact .resetFails hl h1 h2 h3 h4
        · next hbad =>
          obtain ⟨r3, h3, rfl⟩ := closeAndRaise_next h
          obtain ⟨b, rfl⟩ := List.length_eq_one_iff.mp hid
          exact .identity hl h1 h2 (.inr ⟨b, by simpa using hbad, rfl⟩) h3
      · simp only [reduceCtorEq, if_false] at h
        obtain ⟨r3, h3, rfl⟩ := closeAndRaise_next h
        exact .identity hl h1 h2 (.inl rfl) h3
    · simp only [Bool.false_eq_true, if_false] at h
      obtain rfl := (raise_eq_next _).mp h
      exact .openFails hl h1
  · next hl =>
    obtain rfl := (raise_eq_next _).mp h
    exact .notLinked (by simpa using hl)

/-- The operations 60_exceptions.md R182 gates. -/
def gatedOp : Instr → Bool
  | .compTemp _ => true
  | .compPress _ => true
  | .readTp => true
  | .readFifo _ => true
  | .fifoParse _ _ => true
  | .init => false
  | .deinit => false
  | .hdrEmpty => false
  | .hdrCfgErr => false
  | .hdrTime _ => false
  | .hdrPress _ => false
  | .hdrTemp _ => false
  | .hdrTempPress _ _ => false
  | .hdrOther _ => false

/-- READ_TP's state once its six bytes are read. -/
def dataRead (s : State) (rest : List BusAnswer) : State := s.issue (.busRead s.params.dataReg 6) rest

/-- READ_FIFO's state once the length is read. -/
def lengthRead (s : State) (rest : List BusAnswer) : State := s.issue (.busRead s.params.fifoLenReg 2) rest

/-- READ_FIFO's state once the burst has its answer. -/
def burstRead (s : State) (len : Word16) (r1 r2 : List BusAnswer) : State :=
  (lengthRead s r1).issue (.busRead s.params.fifoDataReg len.toNat) r2

/-- The next states of a host command. -/
inductive CommandEffect (s : State) : Instr → State → Prop
  | init {t : State} (h : InitEffect s t) : CommandEffect s .init t
  | deinit {rest : List BusAnswer} (hb : s.bus = .ok :: rest) :
      CommandEffect s .deinit ((s.issue .busClose rest).deinitialise.respond statusOk .none)
  | deinitFails {rest : List BusAnswer} (hb : s.bus = .ioError :: rest) :
      CommandEffect s .deinit ((s.issue .busClose rest).respond statusFailed .none)
  | gate {i : Instr} (hi : gatedOp i = true) (h : s.inited = false) :
      CommandEffect s i (s.respond statusNotReady .none)
  | compTemp {raw : Raw} {c : Calib} (h : s.inited = true) (hc : s.calib = some c)
      (hp : compPrecond s.params .temp c raw = true) :
      CommandEffect s (.compTemp raw) ((s.setTFine (compT c raw).1).respond statusOk (tempResults (compT c raw).2))
  | compTempFails {raw : Raw} {c : Calib} (h : s.inited = true) (hc : s.calib = some c)
      (hp : compPrecond s.params .temp c raw = false) :
      CommandEffect s (.compTemp raw) (s.respond statusFailed .none)
  | compPress {raw : Raw} {c : Calib} (h : s.inited = true) (hc : s.calib = some c)
      (hp : compPrecond s.params .press c raw = true) :
      CommandEffect s (.compPress raw) (s.respond statusOk (pressResults (compPNow s c raw)))
  | compPressFails {raw : Raw} {c : Calib} (h : s.inited = true) (hc : s.calib = some c)
      (hp : compPrecond s.params .press c raw = false) :
      CommandEffect s (.compPress raw) (s.respond statusFailed .none)
  | readTpFails {rest : List BusAnswer} (h : s.inited = true) (hb : s.bus = .ioError :: rest) :
      CommandEffect s .readTp ((dataRead s rest).respond statusFailed .none)
  | readTpPrecond {rest : List BusAnswer} {b : List Byte} {c : Calib} (h : s.inited = true)
      (hb : s.bus = .bytes b :: rest) (hn : b.length = 6) (hc : s.calib = some c)
      (hp : (compPrecond s.params .temp c (rawAt b 3) && compPrecond s.params .press c (rawAt b 0)) = false) :
      CommandEffect s .readTp ((dataRead s rest).respond statusFailed .none)
  | readTp {rest : List BusAnswer} {b : List Byte} {c : Calib} (h : s.inited = true)
      (hb : s.bus = .bytes b :: rest) (hn : b.length = 6) (hc : s.calib = some c)
      (hp : (compPrecond s.params .temp c (rawAt b 3) && compPrecond s.params .press c (rawAt b 0)) = true) :
      CommandEffect s .readTp
        (((dataRead s rest).setTFine (compT c (rawAt b 3)).1).respond statusOk
          (bothResults (rawAt b 3) (rawAt b 0) (compT c (rawAt b 3)).2
            (compPNow ((dataRead s rest).setTFine (compT c (rawAt b 3)).1) c (rawAt b 0))))
  | fifoLengthFails {cap : Word16} {r1 : List BusAnswer} (h : s.inited = true) (h1 : s.bus = .ioError :: r1) :
      CommandEffect s (.readFifo cap) ((lengthRead s r1).respond statusFailed .none)
  | fifoTooSmall {cap : Word16} {l : List Byte} {r1 : List BusAnswer} (h : s.inited = true)
      (h1 : s.bus = .bytes l :: r1) (hl : l.length = 2) (hcap : cap < fifoLength s.params l) :
      CommandEffect s (.readFifo cap) ((lengthRead s r1).respond statusFailed .none)
  | fifoEmpty {cap : Word16} {l : List Byte} {r1 : List BusAnswer} (h : s.inited = true)
      (h1 : s.bus = .bytes l :: r1) (hl : l.length = 2) (hcap : ¬cap < fifoLength s.params l)
      (hz : fifoLength s.params l = 0#16) :
      CommandEffect s (.readFifo cap) ((lengthRead s r1).respond statusOk (.length 0#16))
  | burstFails {cap : Word16} {l : List Byte} {r1 r2 : List BusAnswer} (h : s.inited = true)
      (h1 : s.bus = .bytes l :: r1) (hl : l.length = 2) (hcap : ¬cap < fifoLength s.params l)
      (hz : fifoLength s.params l ≠ 0#16) (h2 : r1 = .ioError :: r2) :
      CommandEffect s (.readFifo cap)
        (((burstRead s (fifoLength s.params l) r1 r2).spoilOut cap.toNat).respond statusFailed .none)
  | burst {cap : Word16} {l d : List Byte} {r1 r2 : List BusAnswer} (h : s.inited = true)
      (h1 : s.bus = .bytes l :: r1) (hl : l.length = 2) (hcap : ¬cap < fifoLength s.params l)
      (hz : fifoLength s.params l ≠ 0#16) (h2 : r1 = .bytes d :: r2)
      (hd : d.length = (fifoLength s.params l).toNat) :
      CommandEffect s (.readFifo cap)
        (((burstRead s (fifoLength s.params l) r1 r2).fillOut d).respond statusOk
          (.length (fifoLength s.params l)))
  | fifoParse {cap : Word16} {payload : List Byte} (h : s.inited = true) :
      CommandEffect s (.fifoParse cap payload) (s.beginScan cap.toNat payload)

theorem exec_compTemp_next {s t : State} {raw : Raw} (h : exec (.compTemp raw) s = .next t) :
    CommandEffect s (.compTemp raw) t := by
  obtain ⟨hi, rfl⟩ | ⟨hi, h⟩ := gated_next h
  · exact .gate rfl hi
  · obtain ⟨c, hc, h⟩ := withCalib_next h
    split at h
    · next hp => obtain rfl := (complete_eq_next _).mp h; exact .compTemp hi hc hp
    · next hp => obtain rfl := (raise_eq_next _).mp h; exact .compTempFails hi hc (by simpa using hp)

theorem exec_compPress_next {s t : State} {raw : Raw} (h : exec (.compPress raw) s = .next t) :
    CommandEffect s (.compPress raw) t := by
  obtain ⟨hi, rfl⟩ | ⟨hi, h⟩ := gated_next h
  · exact .gate rfl hi
  · obtain ⟨c, hc, h⟩ := withCalib_next h
    split at h
    · next hp => obtain rfl := (complete_eq_next _).mp h; exact .compPress hi hc hp
    · next hp => obtain rfl := (raise_eq_next _).mp h; exact .compPressFails hi hc (by simpa using hp)

theorem exec_readTp_next {s t : State} (h : exec .readTp s = .next t) : CommandEffect s .readTp t := by
  obtain ⟨hi, rfl⟩ | ⟨hi, h⟩ := gated_next h
  · exact .gate rfl hi
  · obtain ⟨rest, ⟨b, hb, hn, h⟩ | ⟨hb, h⟩⟩ := busRead_next h
    · obtain ⟨c, hc, h⟩ := withCalib_next h
      split at h
      · next hp => obtain rfl := (complete_eq_next _).mp h; exact .readTp hi hb hn hc hp
      · next hp =>
        obtain rfl := (raise_eq_next _).mp h
        exact .readTpPrecond hi hb hn hc (Bool.not_eq_true _ |>.mp hp)
    · obtain rfl := (raise_eq_next _).mp h
      exact .readTpFails hi hb

theorem exec_readFifo_next {s t : State} {cap : Word16} (h : exec (.readFifo cap) s = .next t) :
    CommandEffect s (.readFifo cap) t := by
  obtain ⟨hi, rfl⟩ | ⟨hi, h⟩ := gated_next h
  · exact .gate rfl hi
  · obtain ⟨r1, ⟨l, h1, hl, h⟩ | ⟨h1, h⟩⟩ := busRead_next h
    · dsimp only at h
      split at h
      · next hcap => obtain rfl := (raise_eq_next _).mp h; exact .fifoTooSmall hi h1 hl hcap
      · next hcap =>
        unfold Machine.burst at h
        split at h
        · next hz => obtain rfl := (complete_eq_next _).mp h; exact .fifoEmpty hi h1 hl hcap hz
        · next hz =>
          obtain ⟨r2, ⟨d, h2, hd, h⟩ | ⟨h2, h⟩⟩ := busRead_next h
          · obtain rfl := (complete_eq_next _).mp h
            exact .burst hi h1 hl hcap hz h2 hd
          · obtain rfl := (raise_eq_next _).mp h
            exact .burstFails hi h1 hl hcap hz h2
    · obtain rfl := (raise_eq_next _).mp h
      exact .fifoLengthFails hi h1

theorem exec_command_next {i : Instr} {s t : State} (hi : i.isCommand = true) (h : exec i s = .next t) :
    CommandEffect s i t := by
  cases i
  case init => exact .init (exec_init_next h)
  case deinit =>
    simp only [exec, execDeinit] at h
    obtain ⟨rest, ⟨hb, h⟩ | ⟨hb, h⟩⟩ := busDo_next h
    · obtain rfl := (complete_eq_next _).mp h
      exact .deinit hb
    · obtain rfl := (raise_eq_next _).mp h
      exact .deinitFails hb
  case compTemp raw => exact exec_compTemp_next h
  case compPress raw => exact exec_compPress_next h
  case readTp => exact exec_readTp_next h
  case readFifo cap => exact exec_readFifo_next h
  case fifoParse cap payload =>
    obtain ⟨hg, rfl⟩ | ⟨hg, h⟩ := gated_next h
    · exact .gate rfl hg
    · cases h; exact .fifoParse hg
  all_goals cases hi

/-- The faults an instruction can stop with. -/
inductive ExecFault (s : State) : Instr → Fault → Prop
  | bus {i : Instr} (hi : i.isCommand = true) : ExecFault s i .busNeverAnswers
  | calib {i : Instr} (hc : s.calib = none) (hi : s.inited = true ∨ s.scan.isSome = true) :
      ExecFault s i .calibAbsent
  | outside {i : Instr} (hi : i.isCommand = false) (hs : s.scan = none) : ExecFault s i .noScan

theorem exec_init_fault {s : State} {r : Fault} (h : exec .init s = .fault r) : r = .busNeverAnswers := by
  simp only [exec, execInit] at h
  split at h
  · obtain hr | ⟨b, rest, h⟩ := busDo_fault h
    · exact hr
    · split at h
      · obtain hr | ⟨id, rest, h⟩ := busRead_fault h
        · exact hr
        · split at h
          · obtain hr | ⟨b, rest, h⟩ := busDo_fault h
            · exact hr
            · split at h
              · obtain hr | ⟨c, rest, h⟩ := busRead_fault h
                · exact hr
                · cases c with
                  | none => exact closeAndRaise_fault h
                  | some c => cases h
              · exact closeAndRaise_fault h
          · exact closeAndRaise_fault h
      · cases h
  · cases h

theorem exec_readTp_fault {s : State} {r : Fault} (h : exec .readTp s = .fault r) : ExecFault s .readTp r := by
  obtain ⟨hi, h⟩ := gated_fault h
  obtain rfl | ⟨b, rest, h⟩ := busRead_fault h
  · exact .bus rfl
  · cases b with
    | none => cases h
    | some b =>
      obtain ⟨hc, rfl⟩ | ⟨c, -, h⟩ := withCalib_fault h
      · exact .calib hc (.inl hi)
      · split at h <;> cases h

theorem exec_readFifo_fault {s : State} {r : Fault} {cap : Word16} (h : exec (.readFifo cap) s = .fault r) :
    r = .busNeverAnswers := by
  obtain ⟨-, h⟩ := gated_fault h
  obtain hr | ⟨l, rest, h⟩ := busRead_fault h
  · exact hr
  · cases l with
    | none => cases h
    | some l =>
      dsimp only at h
      split at h
      · cases h
      · unfold Machine.burst at h
        split at h
        · cases h
        · obtain hr | ⟨d, rest, h⟩ := busRead_fault h
          · exact hr
          · cases d <;> cases h

/-- A frame that compensates faults only for want of a scan or of a table. -/
theorem onScan_withCalib_fault {s : State} {i : Instr} {r : Fault} {body : Scan → Calib → Result}
    (hi : i.isCommand = false) (h : (onScan s fun sc => withCalib s (body sc)) = .fault r)
    (hb : ∀ sc c, body sc c ≠ .fault r) : ExecFault s i r := by
  obtain ⟨hs, rfl⟩ | ⟨sc, hs, h⟩ := onScan_fault h
  · exact .outside hi hs
  · obtain ⟨hc, rfl⟩ | ⟨c, -, h⟩ := withCalib_fault h
    · exact .calib hc (.inr (by rw [hs]; rfl))
    · exact absurd h (hb sc c)

/-- A frame that does not compensate faults only for want of a scan. -/
theorem onScan_total_fault {s : State} {i : Instr} {r : Fault} {body : Scan → Result}
    (hi : i.isCommand = false) (h : onScan s body = .fault r) (hb : ∀ sc, body sc ≠ .fault r) :
    ExecFault s i r := by
  obtain ⟨hs, rfl⟩ | ⟨sc, -, h⟩ := onScan_fault h
  · exact .outside hi hs
  · exact absurd h (hb sc)

theorem exec_fault {i : Instr} {s : State} {r : Fault} (h : exec i s = .fault r) : ExecFault s i r := by
  cases i
  case init => cases exec_init_fault h; exact .bus rfl
  case deinit =>
    simp only [exec, execDeinit] at h
    obtain rfl | ⟨b, rest, h⟩ := busDo_fault h
    · exact .bus rfl
    · cases b <;> cases h
  case compTemp raw =>
    obtain ⟨hi, h⟩ := gated_fault h
    obtain ⟨hc, rfl⟩ | ⟨c, -, h⟩ := withCalib_fault h
    · exact .calib hc (.inl hi)
    · split at h <;> cases h
  case compPress raw =>
    obtain ⟨hi, h⟩ := gated_fault h
    obtain ⟨hc, rfl⟩ | ⟨c, -, h⟩ := withCalib_fault h
    · exact .calib hc (.inl hi)
    · split at h <;> cases h
  case readTp => exact exec_readTp_fault h
  case readFifo cap => cases exec_readFifo_fault h; exact .bus rfl
  case fifoParse cap payload =>
    obtain ⟨-, h⟩ := gated_fault h
    cases h
  case hdrEmpty => exact onScan_total_fault rfl h fun _ => nofun
  case hdrCfgErr => exact onScan_total_fault rfl h fun _ => nofun
  case hdrTime counter => exact onScan_total_fault rfl h fun _ => nofun
  case hdrPress raw => exact onScan_withCalib_fault rfl h fun _ _ => nofun
  case hdrTemp raw => exact onScan_withCalib_fault rfl h fun _ _ => nofun
  case hdrTempPress rawT rawP =>
    simp only [exec, execHdrTempPress] at h
    split at h
    · exact onScan_withCalib_fault rfl h fun _ _ h => by dsimp only at h; split at h <;> cases h
    · exact onScan_total_fault rfl h fun _ => nofun
  case hdrOther header => exact onScan_total_fault rfl h fun _ => nofun

end Sys2Proof.Machine
end

