-- ==== Sys2Proof/Laws/Memory.lean ====
section
/-! SUPPORT. The laws of the buffers: what a write leaves to read, and that every operation keeps the canonical
form. -/

namespace Sys2Proof.Machine

variable {α : Type}

theorem Memory.read_write (m : List (Nat × α)) (a b : Nat) (v : α) :
    Memory.read (Memory.write m a v) b = if a = b then some v else Memory.read m b := by
  induction m with
  | nil => simp [Memory.write, Memory.read]
  | cons c rest ih =>
    obtain ⟨k, w⟩ := c
    by_cases hlt : a < k
    · simp [Memory.write, Memory.read, hlt]
    · by_cases heq : a = k
      · subst heq
        by_cases hab : a = b <;> simp [Memory.write, Memory.read, hab]
      · by_cases hkb : k = b
        · subst hkb
          simp [Memory.write, Memory.read, hlt, heq]
        · simp [Memory.write, Memory.read, hlt, heq, hkb, ih]

theorem Memory.read_writeAll (vs : List α) (m : List (Nat × α)) (a b : Nat) :
    Memory.read (Memory.writeAll m a vs) b
      = if a ≤ b ∧ b < a + vs.length then vs[b - a]? else Memory.read m b := by
  induction vs generalizing m a with
  | nil => simp only [Memory.writeAll, List.length_nil]; split <;> first | omega | rfl
  | cons v rest ih =>
    rw [Memory.writeAll, ih, Memory.read_write]
    by_cases hab : a = b
    · subst hab
      simp
    · by_cases hin : a + 1 ≤ b ∧ b < a + 1 + rest.length
      · have hout : a ≤ b ∧ b < a + (v :: rest).length := by
          simp only [List.length_cons]; omega
        rw [if_pos hin, if_pos hout]
        obtain ⟨j, rfl⟩ : ∃ j, b = a + 1 + j := ⟨b - (a + 1), by omega⟩
        have h1 : a + 1 + j - (a + 1) = j := by omega
        have h2 : a + 1 + j - a = j + 1 := by omega
        rw [h1, h2, List.getElem?_cons_succ]
      · have hout : ¬(a ≤ b ∧ b < a + (v :: rest).length) := by
          simp only [List.length_cons]; omega
        rw [if_neg hin, if_neg hout, if_neg hab]

theorem Memory.read_ofList (vs : List α) (a b : Nat) :
    Memory.read (Memory.ofList a vs) b = if a ≤ b then vs[b - a]? else none := by
  induction vs generalizing a with
  | nil => simp [Memory.ofList, Memory.read]
  | cons v rest ih =>
    rw [Memory.ofList, Memory.read, ih]
    by_cases hab : a = b
    · subst hab
      simp
    · by_cases hle : a + 1 ≤ b
      · obtain ⟨j, rfl⟩ : ∃ j, b = a + 1 + j := ⟨b - (a + 1), by omega⟩
        have h1 : a + 1 + j - (a + 1) = j := by omega
        have h2 : a + 1 + j - a = j + 1 := by omega
        have h3 : a ≤ a + 1 + j := by omega
        rw [if_neg hab, if_pos hle, if_pos h3, h1, h2, List.getElem?_cons_succ]
      · have h3 : ¬a ≤ b := by omega
        rw [if_neg hab, if_neg hle, if_neg h3]

theorem Memory.risingFrom_mono {lo lo' : Nat} (h : lo' ≤ lo) {m : List (Nat × α)}
    (hm : Memory.risingFrom lo m = true) : Memory.risingFrom lo' m = true := by
  cases m with
  | nil => rfl
  | cons c rest =>
    obtain ⟨k, w⟩ := c
    simp only [Memory.risingFrom, Bool.and_eq_true, decide_eq_true_eq] at hm ⊢
    exact ⟨by omega, hm.2⟩

theorem Memory.risingFrom_write {lo a : Nat} (h : lo ≤ a) {m : List (Nat × α)}
    (hm : Memory.risingFrom lo m = true) (v : α) : Memory.risingFrom lo (Memory.write m a v) = true := by
  induction m generalizing lo with
  | nil => simp [Memory.write, Memory.risingFrom, h]
  | cons c rest ih =>
    obtain ⟨k, w⟩ := c
    simp only [Memory.risingFrom, Bool.and_eq_true, decide_eq_true_eq] at hm
    unfold Memory.write
    split
    · simp only [Memory.risingFrom, Bool.and_eq_true, decide_eq_true_eq]
      exact ⟨h, by omega, hm.2⟩
    · split
      · simp only [Memory.risingFrom, Bool.and_eq_true, decide_eq_true_eq]
        exact ⟨h, Memory.risingFrom_mono (by omega) hm.2⟩
      · simp only [Memory.risingFrom, Bool.and_eq_true, decide_eq_true_eq]
        exact ⟨hm.1, ih (by omega) hm.2⟩

theorem Memory.wf_write {m : List (Nat × α)} (hm : Memory.wf m = true) (a : Nat) (v : α) :
    Memory.wf (Memory.write m a v) = true :=
  Memory.risingFrom_write (Nat.zero_le a) hm v

theorem Memory.wf_writeAll {m : List (Nat × α)} (hm : Memory.wf m = true) (a : Nat) (vs : List α) :
    Memory.wf (Memory.writeAll m a vs) = true := by
  induction vs generalizing m a with
  | nil => exact hm
  | cons v rest ih => exact ih (Memory.wf_write hm a v) (a + 1)

theorem Memory.risingFrom_ofList (a : Nat) (vs : List α) :
    Memory.risingFrom a (Memory.ofList a vs) = true := by
  induction vs generalizing a with
  | nil => rfl
  | cons v rest ih => simp [Memory.ofList, Memory.risingFrom, ih]

theorem Memory.wf_ofList (a : Nat) (vs : List α) : Memory.wf (Memory.ofList a vs) = true :=
  Memory.risingFrom_mono (Nat.zero_le a) (Memory.risingFrom_ofList a vs)

theorem Memory.length_readAll {m : List (Nat × α)} {a n : Nat} {vs : List α}
    (h : Memory.readAll m a n = some vs) : vs.length = n := by
  induction n generalizing a vs with
  | zero => simp only [Memory.readAll, Option.some.injEq] at h; simp [← h]
  | succ n ih =>
    simp only [Memory.readAll] at h
    split at h
    · next h1 h2 => simp only [Option.some.injEq] at h; simp [← h, ih h2]
    · cases h

/-- `readAll` answers where every index is listed, as it is in a canonical whole buffer. -/
theorem Memory.readAll_isSome {m : List (Nat × α)} {a n : Nat}
    (h : ∀ k, a ≤ k → k < a + n → (Memory.read m k).isSome = true) :
    (Memory.readAll m a n).isSome = true := by
  induction n generalizing a with
  | zero => rfl
  | succ n ih =>
    have h1 := h a (Nat.le_refl a) (by omega)
    have h2 := ih (a := a + 1) fun k hk hk' => h k (by omega) (by omega)
    obtain ⟨v, hv⟩ := Option.isSome_iff_exists.mp h1
    obtain ⟨vs, hvs⟩ := Option.isSome_iff_exists.mp h2
    simp [Memory.readAll, hv, hvs]

end Sys2Proof.Machine
end

