-- ==== Sys2Proof/Laws/PerInstr.lean ====
section
/-! SUPPORT. One lemma per instruction: the shape of its encoding. -/

namespace Sys2Proof.Laws.EncodedShape

/-- A host command is encoded as a request, with a payload only for FIFO_PARSE (30_encoding.md R60); a frame as 1, 4
or 7 bytes (R68, R69). -/
def ShapeFits : Encoded → Bool → Prop
  | .request w payload, isCommand => isCommand = true ∧ (payload ≠ [] → opcodeOf w = 0x21#8)
  | .frame bytes, isCommand => isCommand = false ∧ (bytes.length = 1 ∨ bytes.length = 4 ∨ bytes.length = 7)

/-- The encoding of `i` has its shape under every parameter set. -/
def Statement (i : Instr) : Prop := ∀ p : Params, ShapeFits (encode p i) i.isCommand

theorem opcodeOf_wordC (op : Byte) (cap : Word16) : opcodeOf (wordC op cap) = op := by
  simp only [opcodeOf, wordC]
  exact BitVec.extractLsb'_append_eq_left

theorem init : Statement .init := fun _ => ⟨rfl, fun h => absurd rfl h⟩
theorem deinit : Statement .deinit := fun _ => ⟨rfl, fun h => absurd rfl h⟩
theorem compTemp (raw : Raw) : Statement (.compTemp raw) := fun _ => ⟨rfl, fun h => absurd rfl h⟩
theorem compPress (raw : Raw) : Statement (.compPress raw) := fun _ => ⟨rfl, fun h => absurd rfl h⟩
theorem readTp : Statement .readTp := fun _ => ⟨rfl, fun h => absurd rfl h⟩
theorem readFifo (cap : Word16) : Statement (.readFifo cap) := fun _ => ⟨rfl, fun h => absurd rfl h⟩
theorem fifoParse (cap : Word16) (payload : List Byte) : Statement (.fifoParse cap payload) :=
  fun _ => ⟨rfl, fun _ => opcodeOf_wordC _ cap⟩
theorem hdrEmpty : Statement .hdrEmpty := fun _ => ⟨rfl, .inl rfl⟩
theorem hdrCfgErr : Statement .hdrCfgErr := fun _ => ⟨rfl, .inl rfl⟩
theorem hdrTime (counter : Raw) : Statement (.hdrTime counter) := fun _ => ⟨rfl, .inr (.inl rfl)⟩
theorem hdrPress (raw : Raw) : Statement (.hdrPress raw) := fun _ => ⟨rfl, .inr (.inl rfl)⟩
theorem hdrTemp (raw : Raw) : Statement (.hdrTemp raw) := fun _ => ⟨rfl, .inr (.inl rfl)⟩
theorem hdrTempPress (rawT rawP : Raw) : Statement (.hdrTempPress rawT rawP) :=
  fun _ => ⟨rfl, .inr (.inr rfl)⟩
theorem hdrOther (header : Byte) : Statement (.hdrOther header) := fun _ => ⟨rfl, .inl rfl⟩

end Sys2Proof.Laws.EncodedShape
end

