-- ==== Sys2Proof/Laws/Step.lean ====
section
/-! SUPPORT. What one step can do, said once: the inversion of the fetch, for a next state and for a fault. -/

namespace Sys2Proof.Machine

variable {s t : State}

/-- The exits of the decode loop before a frame is executed: the end of the buffer, full capacity, or a cut frame. -/
def ScanStops (s : State) (sc : Scan) : Prop :=
  sc.len ≤ sc.cursor ∨ sc.cap ≤ sc.count ∨
    ∃ h, memRead s.inBuf sc.len sc.cursor 1 = some [h] ∧ sc.len < sc.cursor + frameLength s.params h

/-- The frame a running scan executes next. -/
def NextFrame (s : State) (sc : Scan) (i : Instr) : Prop :=
  sc.cursor < sc.len ∧ sc.count < sc.cap ∧
    ∃ h bs, memRead s.inBuf sc.len sc.cursor 1 = some [h] ∧ sc.cursor + frameLength s.params h ≤ sc.len ∧
      memRead s.inBuf sc.len sc.cursor (frameLength s.params h) = some bs ∧ decodeFrame s.params bs = .ok i

theorem fetchFrame_run {s' : State} {sc : Scan} {i : Instr} (h : fetchFrame s sc = .run i s') :
    s' = s ∧ NextFrame s sc i := by
  unfold fetchFrame at h
  split at h
  · cases h
  · next hlt =>
    split at h
    · next b hb =>
      split at h
      · cases h
      · next hfit =>
        split at h
        · cases h
        · next bs hbs =>
          split at h
          · cases h
          · next i' hi =>
            cases h
            exact ⟨rfl, by omega, by omega, b, bs, hb, by omega, hbs, hi⟩
    · cases h

theorem fetchFrame_settled {s' : State} {sc : Scan} (h : fetchFrame s sc = .settled s') :
    s' = s.endScan sc ∧ ScanStops s sc := by
  unfold fetchFrame at h
  split at h
  · next hstop =>
    cases h
    rcases hstop with h | h
    · exact ⟨rfl, .inl h⟩
    · exact ⟨rfl, .inr (.inl h)⟩
  · split at h
    · next b hb =>
      split at h
      · next hcut =>
        cases h
        exact ⟨rfl, .inr (.inr ⟨b, hb, hcut⟩)⟩
      · split at h
        · cases h
        · split at h <;> cases h
    · cases h

/-- A step that answers a next state: a pass of a running scan, or a request taken, or an idle step. -/
theorem step_next (h : step s = .next t) :
    s.params.headersDistinct = true ∧
      ((∃ sc, s.scan = some sc ∧
          ((ScanStops s sc ∧ t = s.endScan sc) ∨ ∃ i, NextFrame s sc i ∧ exec i s = .next t)) ∨
        (s.scan = none ∧
          ((s.requests = [] ∧ t = s) ∨
            ∃ r rest i, s.requests = r :: rest ∧ decodeRequest r.word r.payload = .ok i ∧
              exec i (s.accept rest) = .next t))) := by
  unfold step at h
  cases hd : s.params.headersDistinct
  · simp [fetch, hd] at h
  · refine ⟨rfl, ?_⟩
    cases hs : s.scan with
    | some sc =>
      refine .inl ⟨sc, rfl, ?_⟩
      simp only [fetch, hd, hs, if_true] at h
      cases hf : fetchFrame s sc with
      | run i s' =>
        obtain ⟨rfl, hn⟩ := fetchFrame_run hf
        rw [hf] at h
        exact .inr ⟨i, hn, h⟩
      | settled s' =>
        obtain ⟨rfl, hn⟩ := fetchFrame_settled hf
        rw [hf] at h
        cases h
        exact .inl ⟨hn, rfl⟩
      | fault r => rw [hf] at h; cases h
      | refused r => rw [hf] at h; cases h
    | none =>
      refine .inr ⟨rfl, ?_⟩
      simp only [fetch, hd, hs, if_true, fetchRequest] at h
      cases hr : s.requests with
      | nil =>
        rw [hr] at h
        cases h
        exact .inl ⟨rfl, rfl⟩
      | cons r rest =>
        rw [hr] at h
        cases hi : decodeRequest r.word r.payload with
        | error e => simp only [hi] at h; cases h
        | ok i =>
          simp only [hi] at h
          exact .inr ⟨r, rest, i, rfl, hi, h⟩

theorem fetchFrame_fault {sc : Scan} {r : Fault} (h : fetchFrame s sc = .fault r) :
    r = .memReadPastEnd ∧ sc.cursor < sc.len ∧
      ((∀ b, memRead s.inBuf sc.len sc.cursor 1 ≠ some [b]) ∨
        ∃ b, sc.cursor + frameLength s.params b ≤ sc.len ∧
          memRead s.inBuf sc.len sc.cursor (frameLength s.params b) = none) := by
  unfold fetchFrame at h
  split at h
  · cases h
  · next hlt =>
    split at h
    · next b hb =>
      split at h
      · cases h
      · next hfit =>
        split at h
        · next hnone => cases h; exact ⟨rfl, by omega, .inr ⟨b, by omega, hnone⟩⟩
        · split at h <;> cases h
    · next hb => cases h; exact ⟨rfl, by omega, .inl hb⟩

/-- A step that faults: the fetch of a frame outside the buffer, or the fault of the frame or request it runs. -/
theorem step_fault {r : Fault} (h : step s = .fault r) :
    (∃ sc, s.scan = some sc ∧ (fetchFrame s sc = .fault r ∨ ∃ i, NextFrame s sc i ∧ exec i s = .fault r)) ∨
      (s.scan = none ∧ ∃ q rest i, s.requests = q :: rest ∧ decodeRequest q.word q.payload = .ok i ∧
        exec i (s.accept rest) = .fault r) := by
  unfold step at h
  cases hd : s.params.headersDistinct
  · simp [fetch, hd] at h
  · cases hs : s.scan with
    | some sc =>
      refine .inl ⟨sc, rfl, ?_⟩
      simp only [fetch, hd, hs, if_true] at h
      cases hf : fetchFrame s sc with
      | run i s' =>
        obtain ⟨rfl, hn⟩ := fetchFrame_run hf
        rw [hf] at h
        exact .inr ⟨i, hn, h⟩
      | settled s' => rw [hf] at h; cases h
      | fault r' => rw [hf] at h; cases h; exact .inl rfl
      | refused r' => rw [hf] at h; cases h
    | none =>
      refine .inr ⟨rfl, ?_⟩
      simp only [fetch, hd, hs, if_true, fetchRequest] at h
      cases hr : s.requests with
      | nil => rw [hr] at h; cases h
      | cons q rest =>
        rw [hr] at h
        cases hi : decodeRequest q.word q.payload with
        | error e => simp only [hi] at h; cases h
        | ok i =>
          simp only [hi] at h
          exact ⟨q, rest, i, rfl, hi, h⟩

end Sys2Proof.Machine
end

