-- ==== Sys2Proof/Tests/Slice0.lean ====
section
/-! SUPPORT. Tests against the vectors of 95_test_vectors.md and the encodings of 30_encoding.md, the smoke test of
WellFormed, and one witness per statement with hypotheses. -/

namespace Sys2Proof.Tests

open Sys2Proof Sys2Proof.Machine

/-! ### Small states -/

/-- The example calibration bytes of 40_init_calibration.md. -/
def exampleBytes : List Byte :=
  [0x8E#8, 0x6B#8, 0x90#8, 0x4A#8, 0xF9#8, 0xBE#8, 0xFA#8, 0xD9#8, 0xF4#8, 0x23#8, 0x00#8, 0x57#8, 0x63#8,
   0xBF#8, 0x77#8, 0xF6#8, 0xF5#8, 0xDD#8, 0x3D#8, 0x0A#8, 0xC4#8]

/-- The example table. -/
def exampleTable : Calib := unpack exampleBytes

/-- An initialised block with the example table. -/
def ready : State := { State.reset with inited := true, calib := some exampleTable }

/-- `ready` with bus answers to come. -/
def readyBus (bus : List BusAnswer) : State := { ready with bus := bus }

/-- `ready` at the start of a scan of `bytes` with room for `cap` frames. -/
def scanning (cap : Nat) (bytes : List Byte) : State := ready.beginScan cap bytes

/-- `ready` with a request to come. -/
def asking (word : CommandWord) (payload : List Byte) : State := { ready with requests := [⟨word, payload⟩] }

/-- `ready` under a parameter set where one compensation is excluded. -/
def excluding (kind : CompKind) (raw : Raw) : State :=
  { ready with params := { defaultParams with precondFails := [⟨kind, exampleTable, raw⟩] } }

/-- The bus answers of INIT's vector I1 (95_test_vectors.md 2.2). -/
def initAnswers : List BusAnswer := [.ok, .bytes [0x50#8], .ok, .bytes exampleBytes]

/-- A field of the next state, if there is one. -/
def after {α : Type} (r : Result) (f : State → α) : Option α :=
  match r with
  | .next s => some (f s)
  | .fault _ => none
  | .refused _ => none

/-! ### WellFormed: an ill-formed term for each check -/

theorem test_wf_refuses_long_payload (payload : List Byte) (h : payload.length = 65536) :
    (Instr.fifoParse 0#16 payload).wf defaultParams = false := by
  simp [Instr.wf, maxPayload, h]

theorem test_wf_refuses_combined_under_skip1 :
    (Instr.hdrTempPress 0#24 0#24).wf { defaultParams with combined := .skip1 } = false := by decide

theorem test_wf_refuses_named_header_as_other : (Instr.hdrOther 0x90#8).wf defaultParams = false := by decide

theorem test_wf_accepts_cfgChg_as_other : (Instr.hdrOther 0x48#8).wf defaultParams = true := by decide

theorem test_equal_headers_refused :
    { defaultParams with hdrTemp := 0x84#8 }.headersDistinct = false := by decide

/-! ### Decoding (95_test_vectors.md 2.1, 30_encoding.md R62, R69) -/

theorem test_decode_commands :
    decodeTableWord 32 0x01000000 = some .init ∧ decodeTableWord 32 0x02000000 = some .deinit ∧
      decodeTableWord 32 0x10FFFFFF = some (.compTemp 0xFFFFFF#24) ∧
      decodeTableWord 32 0x11600000 = some (.compPress 0x600000#24) ∧
      decodeTableWord 32 0x12000000 = some .readTp ∧
      decodeTableWord 32 0x2000FFFF = some (.readFifo 65535#16) ∧
      decodeTableWord 32 0x21000008 = some (.fifoParse 8#16 []) := by decide

theorem test_decode_refuses :
    decodeRequest 0x00000000#32 [] = .error (.reservedOpcode 0x00#8) ∧
      decodeRequest 0x13000000#32 [] = .error (.reservedOpcode 0x13#8) ∧
      decodeRequest 0x01000001#32 [] = .error .reservedBits ∧
      decodeRequest 0x12800000#32 [] = .error .reservedBits ∧
      decodeRequest 0x20010010#32 [] = .error .reservedBits ∧
      decodeRequest 0x10810000#32 [0#8] = .error .strayPayload := by decide

theorem test_decode_refuses_long_payload (payload : List Byte) (h : payload.length = 65536) :
    decodeRequest 0x21000000#32 payload = .error .payloadTooLong := by
  simp [decodeRequest, decodeWord, checkPayload, opcodeOf, formC, midOf, maxPayload, h]

theorem test_decode_headers :
    decodeTableWord 8 0x80 = some .hdrEmpty ∧ decodeTableWord 8 0x44 = some .hdrCfgErr ∧
      decodeTableWord 8 0xA0 = some (.hdrTime 0#24) ∧ decodeTableWord 8 0x84 = some (.hdrPress 0#24) ∧
      decodeTableWord 8 0x90 = some (.hdrTemp 0#24) ∧
      decodeTableWord 8 0x94 = some (.hdrTempPress 0#24 0#24) ∧
      decodeTableWord 8 0x48 = some (.hdrOther 0x48#8) ∧ decodeTableWord 8 0x00 = some (.hdrOther 0#8) := by
  decide

theorem test_decode_frames :
    decodeFrame defaultParams [0xA0#8, 0x10#8, 0x27#8, 0x00#8] = .ok (.hdrTime 0x002710#24) ∧
      decodeFrame defaultParams [0x84#8, 0x00#8, 0x00#8, 0x60#8] = .ok (.hdrPress 0x600000#24) ∧
      decodeFrame defaultParams [0x90#8, 0x00#8, 0x8E#8, 0x6B#8] = .ok (.hdrTemp 0x6B8E00#24) ∧
      decodeFrame defaultParams [0x94#8, 0x00#8, 0x8E#8, 0x6B#8, 0x00#8, 0x00#8, 0x6A#8]
        = .ok (.hdrTempPress 0x6B8E00#24 0x6A0000#24) ∧
      decodeFrame defaultParams [0x90#8, 0x00#8, 0x00#8] = .error .frameCut ∧
      decodeFrame { defaultParams with combined := .skip1 } [0x94#8] = .ok (.hdrOther 0x94#8) := by decide

theorem test_encode :
    encode defaultParams .readTp = .request 0x12000000#32 [] ∧
      encode defaultParams (.readFifo 16#16) = .request 0x20000010#32 [] ∧
      encode defaultParams (.hdrPress 0x600000#24) = .frame [0x84#8, 0x00#8, 0x00#8, 0x60#8] := by decide

/-! ### Calibration and arithmetic (95_test_vectors.md 2.2 to 2.4) -/

theorem test_unpack_example :
    [t1Z exampleTable, t2Z exampleTable, t3Z exampleTable, p1Z exampleTable, p2Z exampleTable,
      p3Z exampleTable, p4Z exampleTable, p5Z exampleTable, p6Z exampleTable, p7Z exampleTable,
      p8Z exampleTable, p9Z exampleTable, p10Z exampleTable, p11Z exampleTable]
      = [27534, 19088, -7, -1346, -2855, 35, 0, 25431, 30655, -10, -11, 15837, 10, -60] := by decide

theorem test_pack_example : pack exampleTable = exampleBytes := by decide

theorem test_tdiv_toward_zero : tdivZ (-7) 2 = -3 ∧ wrap64 (2 ^ 63) = -2 ^ 63 ∧ u64 (-1) = 2 ^ 64 - 1 := by decide

theorem test_compP_intermediates :
    compPOffset exampleTable 1634173 = 3788692284143631469 ∧
      compPSens exampleTable 1634173 = -1313198114698352404 ∧
      compPSum .direct exampleTable 1634173 0x600000 = 462891582279466779 ∧
      compPSum .div10 exampleTable 1634173 0x600000 = 462891582279393051 := by decide +kernel

theorem test_compP_wraps :
    compP .direct exampleTable 1634173 0x000000#24 = 4759006 ∧
      compP .direct exampleTable 1634173 0xFFFFFF#24 = 7657007 ∧
      compP .div10 exampleTable 1634173 0xFFFFFF#24 = 9295407 ∧
      compP .direct (unpack (List.replicate 21 0#8)) 0 0x600000#24 = 6946816 := by decide +kernel

theorem test_floats :
    celsius 2493 = 0x41C770A4#32 ∧ celsius (-1347) = 0xC157851F#32 ∧ celsius 0 = 0#32 ∧
      pascals 10524936 = 0x47CD90AE#32 ∧ pascals 191490 = 0x44EF5CCD#32 := by decide +kernel

theorem test_fifo_length :
    fifoLength defaultParams [0x09#8, 0x00#8] = 9#16 ∧ fifoLength defaultParams [0xFF#8, 0xFF#8] = 511#16 ∧
      fifoLength defaultParams [0x00#8, 0xFE#8] = 0#16 := by decide

theorem test_frame_type_codes :
    [FrameType.temperature, .pressure, .sensorTime].map frameTypeCode = [0, 1, 2] := by decide

/-! ### Instructions, one step each -/

theorem test_init_I1 :
    after (exec .init { State.reset with bus := initAnswers }) (fun t => (t.inited, t.calib, t.responses))
      = some (true, some exampleTable, [⟨0#8, .none⟩]) := by decide

theorem test_init_I4 :
    after (exec .init { State.reset with bus := [.ok, .bytes [0x60#8], .ioError] })
        (fun t => (t.inited, t.trace, t.responses))
      = some (false, [.busOpen, .busRead 0x00#8 1, .busClose], [⟨4#8, .none⟩]) := by decide

theorem test_deinit_X1 :
    after (exec .deinit { readyBus [.ok] with tFine := 1634173#64 }) (fun t => (t.inited, t.tFine, t.responses))
      = some (false, 1634173#64, [⟨0#8, .none⟩]) := by decide

theorem test_deinit_X2 :
    after (exec .deinit (readyBus [.ioError])) (fun t => (t.inited, t.responses))
      = some (true, [⟨1#8, .none⟩]) := by decide

theorem test_compTemp :
    after (exec (.compTemp 0x810000#24) ready) (fun t => (t.tFine, t.responses))
      = some (1634173#64, [⟨0#8, .temperature 2493#64 0x41C770A4#32⟩]) := by decide +kernel

theorem test_compTemp_rounds_toward_zero :
    after (exec (.compTemp 0x600000#24) ready) (fun t => (t.tFine.toInt, t.responses))
      = some (-883158, [⟨0#8, .temperature (BitVec.ofInt 64 (-1347)) 0xC157851F#32⟩]) := by decide +kernel

theorem test_compPress :
    after (exec (.compPress 0x600000#24) { ready with tFine := 1634173#64 }) (fun t => (t.tFine, t.responses))
      = some (1634173#64, [⟨0#8, .pressure 10524936#64 0x47CD90AE#32⟩]) := by decide +kernel

theorem test_compPress_gate :
    after (exec (.compPress 0x600000#24) State.reset) (fun t => t.responses) = some [⟨3#8, .none⟩] := by decide

theorem test_readTp_uses_new_temperature :
    after (exec .readTp
        { readyBus [.bytes [0x00#8, 0x00#8, 0x60#8, 0x00#8, 0x8E#8, 0x6B#8]] with tFine := 1634173#64 })
        (fun t => (t.tFine, t.responses))
      = some (0#64, [⟨0#8, .both 0x6B8E00#24 0x600000#24 0#64 0#32 9889007#64 0x47C12509#32⟩]) := by
  decide +kernel

theorem test_readTp_io_error :
    after (exec .readTp { readyBus [.ioError] with tFine := 1634173#64 }) (fun t => (t.tFine, t.responses))
      = some (1634173#64, [⟨1#8, .none⟩]) := by decide

/-- The burst of 95_test_vectors.md 2.6. -/
def burstBytes : List Byte := [0x90#8, 0x00#8, 0x00#8, 0x81#8, 0x84#8, 0x00#8, 0x00#8, 0x60#8, 0x80#8]

theorem test_readFifo_exact_capacity :
    after (exec (.readFifo 9#16) { readyBus [.bytes [0x09#8, 0x00#8], .bytes burstBytes] with outBuf := [(9, 7#8)] })
        (fun t => (t.outBuf, t.responses))
      = some (Memory.ofList 0 (burstBytes ++ [7#8]), [⟨0#8, .length 9#16⟩]) := by decide

theorem test_readFifo_too_small :
    after (exec (.readFifo 8#16) (readyBus [.bytes [0x09#8, 0x00#8], .bytes burstBytes]))
        (fun t => (t.bus, t.responses))
      = some ([.bytes burstBytes], [⟨1#8, .none⟩]) := by decide

theorem test_fifoParse_begins :
    after (exec (.fifoParse 8#16 burstBytes) ready) (fun t => (t.scan, t.responses))
      = some (some ⟨9, 8, 0, 0⟩, []) := by decide

theorem test_fifoParse_gate :
    after (exec (.fifoParse 8#16 burstBytes) State.reset) (fun t => (t.scan, t.responses))
      = some (none, [⟨3#8, .none⟩]) := by decide

theorem test_hdrEmpty_F8 :
    after (step (scanning 8 [0x80#8, 0x90#8, 0x00#8, 0x00#8, 0x81#8])) (fun t => (t.scan, t.responses))
      = some (none, [⟨0#8, .frameCount 0#16⟩]) := by decide

theorem test_hdrCfgErr_F9 :
    after (step (scanning 8 [0x44#8, 0x90#8, 0x00#8, 0x00#8, 0x81#8])) (fun t => (t.scan, t.responses))
      = some (none, [⟨0#8, .frameCount 0#16⟩]) := by decide

theorem test_hdrTime_F12 :
    after (step (scanning 8 [0xA0#8, 0xFF#8, 0xFF#8, 0xFF#8])) (fun t => (t.frames, t.scan))
      = some ([(0, ⟨.sensorTime, 0xFFFFFF#24, none⟩)], some ⟨4, 8, 4, 1⟩) := by decide

theorem test_hdrTemp_F1 :
    after (step (scanning 8 burstBytes)) (fun t => (t.frames, t.tFine, t.scan))
      = some ([(0, ⟨.temperature, 0x810000#24, some 0x41C770A4#32⟩)], 1634173#64, some ⟨9, 8, 4, 1⟩) := by
  decide +kernel

theorem test_hdrTemp_F13_cut :
    after (step (scanning 8 [0x90#8, 0x00#8, 0x00#8])) (fun t => (t.frames, t.scan, t.responses))
      = some ([], none, [⟨0#8, .frameCount 0#16⟩]) := by decide

theorem test_hdrPress_F7 :
    after (step { scanning 8 [0x84#8, 0x00#8, 0x00#8, 0x60#8] with tFine := 1634173#64 })
        (fun t => (t.frames, t.tFine))
      = some ([(0, ⟨.pressure, 0x600000#24, some 0x47CD90AE#32⟩)], 1634173#64) := by decide +kernel

theorem test_hdrTempPress_F15 :
    after (step (scanning 8 [0x94#8, 0x00#8, 0x00#8, 0x81#8, 0x00#8, 0x00#8, 0x60#8]))
        (fun t => (t.frames, t.tFine, t.scan))
      = some ([(0, ⟨.temperature, 0x810000#24, some 0x41C770A4#32⟩),
          (1, ⟨.pressure, 0x600000#24, some 0x47CD90AE#32⟩)], 1634173#64, some ⟨7, 8, 7, 2⟩) := by
  decide +kernel

theorem test_hdrTempPress_F16 :
    after (step { scanning 1 [0x94#8, 0x00#8, 0x8E#8, 0x6B#8, 0x00#8, 0x00#8, 0x6A#8] with tFine := 1634173#64 })
        (fun t => (t.frames, t.tFine, t.responses))
      = some ([(0, ⟨.temperature, 0x6B8E00#24, some 0#32⟩)], 0#64, [⟨0#8, .frameCount 1#16⟩]) := by
  decide +kernel

theorem test_hdrOther_F11 :
    after (step (scanning 8 [0x48#8, 0x90#8])) (fun t => (t.frames, t.scan))
      = some ([], some ⟨2, 8, 1, 0⟩) := by decide

/-! ### Placement of one instruction -/

theorem test_withFetchWord_runs :
    after (step (State.reset.withFetchWord 32 0x01000000)) (fun t => t.responses) = some [⟨0#8, .none⟩] ∧
      after (step (State.reset.withFetchWord 32 0x12000000)) (fun t => t.responses) = some [⟨3#8, .none⟩] ∧
      after (step (State.reset.withFetchWord 8 0xA0)) (fun t => t.frames)
        = some [(0, ⟨.sensorTime, 0#24, none⟩)] := by decide

/-! ### Witnesses: for each statement with hypotheses, operands that meet all of them -/

theorem witness_CommandsDecodeFromTheirEncoding :
    (Instr.fifoParse 0xFFFF#16 [1#8]).isCommand = true ∧ (Instr.fifoParse 0xFFFF#16 [1#8]).wf defaultParams = true := by
  decide

theorem witness_FramesDecodeFromTheirEncoding :
    defaultParams.headersDistinct = true ∧ (Instr.hdrOther 0x48#8).isCommand = false ∧
      (Instr.hdrOther 0x48#8).wf defaultParams = true ∧ (Instr.hdrTempPress 1#24 2#24).wf defaultParams = true := by
  decide

theorem witness_RequestsEncodeBack : decodeRequest 0x21000008#32 [3#8] = .ok (.fifoParse 8#16 [3#8]) := by decide

theorem witness_FramesEncodeBack :
    decodeFrame defaultParams [0x84#8, 1#8, 2#8, 3#8, 9#8] = .ok (.hdrPress 0x030201#24) ∧
      decodeFrame defaultParams [0x48#8] = .ok (.hdrOther 0x48#8) := by decide

theorem witness_CommandTableDecides :
    (0xFFFFFFFF#32, 0x01000000#32) ∈ commandRows ∧ 0x01000000#32 &&& 0xFFFFFFFF#32 = 0x01000000#32 := by decide

theorem witness_BadRequestsAreRefused :
    (asking 0x13000000#32 []).params.headersDistinct = true ∧ (asking 0x13000000#32 []).scan = none ∧
      (asking 0x13000000#32 []).requests = [⟨0x13000000#32, []⟩] := by decide

/-- One request for each of the five cases of 30_encoding.md R64. -/
theorem witness_BadRequest_cases :
    BadRequest 0x13000000#32 [] ∧ BadRequest 0x01000001#32 [] ∧ BadRequest 0x20010000#32 [] ∧
      BadRequest 0x10000000#32 [0#8] ∧ BadRequest 0x21000000#32 (List.replicate 65536 0#8) := by
  refine ⟨.inl (by decide), .inr (.inl (by decide)), .inr (.inr (.inl (by decide))),
    .inr (.inr (.inr (.inl (by decide)))), .inr (.inr (.inr (.inr ⟨by decide, ?_⟩)))⟩
  rw [List.length_replicate]
  decide

theorem witness_StepRunsTheRequest :
    (asking 0x10810000#32 []).params.headersDistinct = true ∧ (asking 0x10810000#32 []).scan = none ∧
      (asking 0x10810000#32 []).requests = [⟨0x10810000#32, []⟩] ∧
      decodeRequest 0x10810000#32 [] = .ok (.compTemp 0x810000#24) := by decide

theorem witness_StepRunsTheFrame :
    (scanning 1 burstBytes).params.headersDistinct = true ∧ (scanning 1 burstBytes).scan = some ⟨9, 1, 0, 0⟩ ∧
      memRead (scanning 1 burstBytes).inBuf 9 0 1 = some [0x90#8] ∧
      memRead (scanning 1 burstBytes).inBuf 9 0 (frameLength (scanning 1 burstBytes).params 0x90#8)
        = some [0x90#8, 0x00#8, 0x00#8, 0x81#8] ∧
      decodeFrame (scanning 1 burstBytes).params [0x90#8, 0x00#8, 0x00#8, 0x81#8]
        = .ok (.hdrTemp 0x810000#24) := by decide

theorem witness_WaitsForTheNextRequest :
    ready.params.headersDistinct = true ∧ ready.scan = none ∧ ready.requests = [] := by decide

theorem witness_EqualHeadersAreRefused :
    ¬ { ready with params := { defaultParams with hdrTemp := 0x84#8 } }.params.headers.Nodup := by decide

theorem witness_RequestsWaitForTheScan :
    ∃ t, (scanning 1 [0x00#8]).scan = some ⟨1, 1, 0, 0⟩ ∧ step (scanning 1 [0x00#8]) = .next t :=
  ⟨_, rfl, rfl⟩

theorem scanning_Inv : (scanning 2 burstBytes).Inv where
  inBuf_wf := by decide
  outBuf_wf := by decide
  frames_wf := by decide
  calib := by decide
  tFine_ge := by decide
  tFine_le := by decide
  frame_data := fun k f h => by cases h
  scan := fun sc h => by
    obtain rfl : (⟨9, 2, 0, 0⟩ : Scan) = sc := Option.some.inj h
    exact ⟨by decide, by decide, by decide, by decide, by decide, by decide⟩

theorem witness_StepKeepsInvariant :
    ∃ t, (scanning 2 burstBytes).Inv ∧ step (scanning 2 burstBytes) = .next t := ⟨_, scanning_Inv, rfl⟩

theorem asking_Inv (word : CommandWord) (payload : List Byte) : (asking word payload).Inv where
  inBuf_wf := rfl
  outBuf_wf := rfl
  frames_wf := rfl
  calib := fun _ => rfl
  tFine_ge := (by decide : (-75495168 : Int) ≤ (0#64 : Word64).toInt)
  tFine_le := (by decide : (0#64 : Word64).toInt ≤ 75430907)
  frame_data := nofun
  scan := nofun

theorem witness_StepKeepsInvariant_fault :
    (asking 0x02000000#32 []).Inv ∧ step (asking 0x02000000#32 []) = .fault .busNeverAnswers :=
  ⟨asking_Inv _ _, rfl⟩

theorem witness_OutputsOnlyGrow : ∃ t, step (asking 0x12000000#32 []) = .next t ∨ step ready = .next t :=
  ⟨_, .inr rfl⟩

theorem witness_OnlyInitWritesCalibration :
    ∃ t, exec .init { State.reset with bus := initAnswers } = .next t ∧ t.calib ≠ State.reset.calib :=
  ⟨_, rfl, by decide⟩

theorem witness_OnlyInitAndDeinitWriteInited :
    (∃ t, exec .init { State.reset with bus := initAnswers } = .next t ∧ t.inited ≠ State.reset.inited) ∧
      ∃ t, exec .deinit (readyBus [.ok]) = .next t ∧ t.inited ≠ (readyBus [.ok]).inited :=
  ⟨⟨_, rfl, by decide⟩, ⟨_, rfl, by decide⟩⟩

theorem witness_OnlyTemperaturesWriteTFine :
    ∃ t, exec (.compTemp 0x810000#24) ready = .next t ∧ t.tFine ≠ ready.tFine :=
  ⟨_, rfl, by decide +kernel⟩

theorem witness_UninitialisedGate :
    State.reset.inited = false ∧ ∃ t, exec .deinit (readyBus [.ioError]) = .next t := ⟨rfl, _, rfl⟩

theorem witness_StatusCodes :
    ∃ t, exec .init { State.reset with bus := [.ok, .ioError, .ok] } = .next t ∧
      t.responses = State.reset.responses ++ [⟨4#8, .none⟩] := ⟨_, rfl, rfl⟩

theorem witness_FailuresLeaveTheState :
    ∃ t, exec (.readFifo 9#16) (readyBus [.bytes [0x09#8, 0x00#8], .ioError]) = .next t ∧
      t.responses = ready.responses ++ [⟨1#8, .none⟩] ∧ (1#8 : Byte) ≠ 0#8 ∧
      ∃ t', exec .readTp (readyBus [.ioError]) = .next t' ∧ t'.responses = ready.responses ++ [⟨1#8, .none⟩] ∧
        ∀ cap, Instr.readTp ≠ .readFifo cap :=
  ⟨_, rfl, rfl, by decide, _, rfl, rfl, fun _ => nofun⟩

theorem witness_NoBusTransactions :
    ∃ t, exec (.hdrTime 5#24) (scanning 1 []) = .next t ∧ (∀ cap, Instr.hdrTime 5#24 ≠ .readFifo cap) ∧
      Instr.hdrTime 5#24 ≠ .init ∧ Instr.hdrTime 5#24 ≠ .deinit ∧ Instr.hdrTime 5#24 ≠ .readTp :=
  ⟨_, rfl, fun _ => nofun, nofun, nofun, nofun⟩

/-- The buses of the statement: none at all, each of INIT's six longer ones, and READ_FIFO's before the burst. -/
theorem witness_UnansweredBusIsStuck :
    ready.bus = [] ∧ ready.params.linked = true ∧ ready.inited = true ∧ (0x51#8 : Byte) ≠ ready.params.chipId ∧
      (∀ bus ∈ ([[], [.ok], [.ok, .bytes [0x51#8]], [.ok, .bytes [0x50#8]], [.ok, .bytes [0x50#8], .ioError],
          [.ok, .bytes [0x50#8], .ok], [.ok, .bytes [0x50#8], .ok, .ioError]] : List (List BusAnswer)),
        (readyBus bus).bus ∈ [[], [.ok], [.ok, .bytes [0x51#8]], [.ok, .bytes [ready.params.chipId]],
          [.ok, .bytes [ready.params.chipId], .ioError], [.ok, .bytes [ready.params.chipId], .ok],
          [.ok, .bytes [ready.params.chipId], .ok, .ioError]]) ∧
      (readyBus [.bytes [0x09#8, 0x00#8]]).bus = [.bytes [0x09#8, 0x00#8]] ∧
      0 < (le16 0x09#8 0x00#8 &&& ready.params.fifoLenMask).toNat ∧
      (le16 0x09#8 0x00#8 &&& ready.params.fifoLenMask).toNat ≤ (9#16 : Word16).toNat := by decide

theorem witness_InitLoadsCalibration :
    (readyBus initAnswers).params.linked = true ∧ exampleBytes.length = 21 ∧
      (readyBus initAnswers).bus
        = .ok :: .bytes [(readyBus initAnswers).params.chipId] :: .ok :: .bytes exampleBytes :: [] := by decide

theorem witness_InitStatusOrder :
    ((BusAnswer.ioError = .ok ∨ BusAnswer.ioError = .ioError) ∧
      { ready with params := { defaultParams with linked := false } }.params.linked = false) ∧
      (readyBus [.ioError]).bus = .ioError :: [] ∧
      ((readyBus [.ok, .bytes [0x51#8], .ioError]).bus = .ok :: .bytes [0x51#8] :: .ioError :: [] ∧
        (0x51#8 : Byte) ≠ ready.params.chipId) ∧
      (readyBus [.ok, .ioError, .ok]).bus = .ok :: .ioError :: .ok :: [] ∧
      (readyBus [.ok, .bytes [0x50#8], .ioError, .ok]).bus
        = .ok :: .bytes [ready.params.chipId] :: .ioError :: .ok :: [] ∧
      (readyBus [.ok, .bytes [0x50#8], .ok, .ioError, .ioError]).bus
        = .ok :: .bytes [ready.params.chipId] :: .ok :: .ioError :: .ioError :: [] ∧
      (readyBus initAnswers).bus = .ok :: .bytes [ready.params.chipId] :: .ok :: .bytes exampleBytes :: [] ∧
      ready.params.linked = true ∧ exampleBytes.length = 21 := by decide

theorem witness_InitEffect :
    (∃ t, exec .init (readyBus initAnswers) = .next t) ∧ ∃ t, exec .init (readyBus [.ioError]) = .next t :=
  ⟨⟨_, rfl⟩, ⟨_, rfl⟩⟩

theorem witness_UnpackPackRoundTrip : exampleBytes.length = 21 := by decide

theorem witness_DeinitEffect : (readyBus [.ok]).bus = .ok :: [] ∧ (readyBus [.ioError]).bus = .ioError :: [] := by
  decide

theorem witness_CompTempResult :
    ready.inited = true ∧ ready.calib = some exampleTable ∧
      ⟨.temp, exampleTable, 0xFFFFFF#24⟩ ∉ ready.params.precondFails := by decide

theorem witness_CompPressResult :
    ready.inited = true ∧ ready.calib = some exampleTable ∧
      ⟨.press, exampleTable, 0#24⟩ ∉ ready.params.precondFails := by decide

theorem witness_PreconditionFailures :
    (excluding .temp 7#24).inited = true ∧ (excluding .temp 7#24).calib = some exampleTable ∧
      ⟨.temp, exampleTable, 7#24⟩ ∈ (excluding .temp 7#24).params.precondFails ∧
      ⟨.press, exampleTable, 7#24⟩ ∈ (excluding .press 7#24).params.precondFails ∧
      (readyBus [.bytes [7#8, 0#8, 0#8, 7#8, 0#8, 0#8]]).bus = .bytes [7#8, 0#8, 0#8, 7#8, 0#8, 0#8] :: [] ∧
      le24 7#8 0#8 0#8 = 7#24 := by decide

theorem witness_ReadTpResult :
    (readyBus [.bytes [0#8, 0#8, 0x60#8, 0#8, 0#8, 0x81#8]]).inited = true ∧
      (readyBus [.bytes [0#8, 0#8, 0x60#8, 0#8, 0#8, 0x81#8]]).calib = some exampleTable ∧
      (readyBus [.bytes [0#8, 0#8, 0x60#8, 0#8, 0#8, 0x81#8]]).bus
        = .bytes [0#8, 0#8, 0x60#8, 0#8, 0#8, 0x81#8] :: [] ∧
      ⟨.temp, exampleTable, le24 0#8 0#8 0x81#8⟩ ∉ ready.params.precondFails ∧
      ⟨.press, exampleTable, le24 0#8 0#8 0x60#8⟩ ∉ ready.params.precondFails := by decide

theorem witness_ReadTpFailedRead :
    (readyBus [.ioError]).inited = true ∧ (readyBus [.ioError]).bus = .ioError :: [] := by decide

theorem witness_ReadTpEffect :
    (∃ t, exec .readTp (readyBus [.bytes [0#8, 0#8, 0x60#8, 0#8, 0#8, 0x81#8]]) = .next t) ∧
      (∃ t, exec .readTp (readyBus [.ioError]) = .next t) ∧ ∃ t, exec .readTp State.reset = .next t :=
  ⟨⟨_, rfl⟩, ⟨_, rfl⟩, ⟨_, rfl⟩⟩

theorem witness_ReadTpIgnoresOlderTFine :
    ∃ t, exec .readTp (readyBus [.bytes [0#8, 0#8, 0x60#8, 0#8, 0#8, 0x81#8]]) = .next t := ⟨_, rfl⟩

theorem witness_RoundingIsNearestEven : 0 < (roundRatio 24 false 2493 100).man ∧ 0 < 24 ∧ 0 < 2493 ∧ 0 < 100 := by
  decide

theorem witness_ConversionsAreNormal : (2 ^ 64 - 1 : Int) ≠ 0 ∧ |(2 ^ 64 - 1 : Int)| < 2 ^ 64 := by decide

theorem witness_ReadFifoResult :
    (readyBus [.bytes [0x01#8, 0x00#8], .bytes [5#8]]).inited = true ∧
      (readyBus [.bytes [0x01#8, 0x00#8], .bytes [5#8]]).bus = .bytes [0x01#8, 0x00#8] :: .bytes [5#8] :: [] ∧
      [(5#8 : Byte)].length = (le16 0x01#8 0x00#8 &&& ready.params.fifoLenMask).toNat ∧
      [(5#8 : Byte)].length ≤ (1#16 : Word16).toNat ∧
      (readyBus [.bytes [0x00#8, 0x02#8]]).bus = .bytes [0x00#8, 0x02#8] :: [] ∧
      le16 0x00#8 0x02#8 &&& ready.params.fifoLenMask = 0#16 := by decide

theorem witness_ReadFifoBuffer :
    State.reset.inited = false ∧ ready.inited = true ∧ (readyBus [.ioError]).bus = .ioError :: [] ∧
      ((readyBus [.bytes [0x09#8, 0x00#8]]).bus = .bytes [0x09#8, 0x00#8] :: [] ∧
        (8#16 : Word16).toNat < (le16 0x09#8 0x00#8 &&& ready.params.fifoLenMask).toNat) ∧
      (readyBus [.bytes [0x09#8, 0x00#8], .ioError]).bus = .bytes [0x09#8, 0x00#8] :: .ioError :: [] ∧
      (le16 0x09#8 0x00#8 &&& ready.params.fifoLenMask).toNat ≤ (9#16 : Word16).toNat := by decide

theorem witness_ReadFifoBuffer_success :
    ∃ t, exec (.readFifo 9#16) (readyBus [.bytes [0x09#8, 0x00#8], .bytes burstBytes]) = .next t ∧
      t.responses = ready.responses ++ [⟨0#8, .length 9#16⟩] := ⟨_, rfl, rfl⟩

theorem witness_FifoParseBeginsTheScan : ready.inited = true := rfl

theorem witness_FifoParseEmptyInputs :
    (asking 0x21000008#32 []).params.headersDistinct = true ∧ (asking 0x21000008#32 []).inited = true ∧
      (asking 0x21000008#32 []).scan = none ∧
      (asking 0x21000008#32 []).requests = ⟨0x21#8 ++ (0#8 ++ 8#16 : BitVec 24), []⟩ :: [] ∧
      (asking 0x21000000#32 [1#8]).requests = ⟨0x21#8 ++ (0#8 ++ 0#16 : BitVec 24), [1#8]⟩ :: [] ∧
      [(1#8 : Byte)].length ≤ 65535 := by decide

theorem witness_SingleFrameResults :
    (scanning 1 [0xA0#8]).scan = some ⟨1, 1, 0, 0⟩ ∧ 0 < 1 ∧ (scanning 1 [0xA0#8]).calib = some exampleTable := by
  decide

theorem witness_CombinedFrameResult :
    (scanning 2 []).scan = some ⟨0, 2, 0, 0⟩ ∧ 0 + 2 ≤ 2 ∧ (scanning 1 []).scan = some ⟨0, 1, 0, 0⟩ ∧ 0 + 1 = 1 ∧
      (scanning 2 []).calib = some exampleTable ∧ (scanning 2 []).params.combined = .split ∧
      { scanning 1 [] with params := { defaultParams with combined := .skip1 } }.params.combined = .skip1 := by
  decide

theorem witness_MarkerAndOtherByteResults : (scanning 1 [0x80#8]).scan = some ⟨1, 1, 0, 0⟩ ∧ 0 < 1 := by decide

theorem witness_FramesNeedAScanWithRoom :
    (Instr.hdrTempPress 0#24 0#24).isCommand = false ∧ ready.scan = none ∧
      (scanning 0 [0x90#8]).scan = some ⟨1, 0, 0, 0⟩ ∧ (scanning 0 [0x90#8]).params.headersDistinct = true := by
  decide

theorem witness_SensorTimeBytes :
    memRead (scanning 1 [0xA0#8, 1#8, 2#8, 3#8]).inBuf 4 0 4 = some [ready.params.hdrTime, 1#8, 2#8, 3#8] ∧
      (scanning 1 [0xA0#8, 1#8, 2#8, 3#8]).scan = some ⟨4, 1, 0, 0⟩ ∧ ready.params.headersDistinct = true := by decide

theorem witness_TemperatureBytes :
    memRead (scanning 1 [0x90#8, 1#8, 2#8, 3#8]).inBuf 4 0 4 = some [ready.params.hdrTemp, 1#8, 2#8, 3#8] ∧
      (scanning 1 [0x90#8, 1#8, 2#8, 3#8]).scan = some ⟨4, 1, 0, 0⟩ ∧
      (scanning 1 [0x90#8, 1#8, 2#8, 3#8]).calib = some exampleTable := by decide

theorem witness_PressureBytes :
    memRead (scanning 1 [0x84#8, 1#8, 2#8, 3#8]).inBuf 4 0 4 = some [ready.params.hdrPress, 1#8, 2#8, 3#8] ∧
      (scanning 1 [0x84#8, 1#8, 2#8, 3#8]).scan = some ⟨4, 1, 0, 0⟩ ∧
      (scanning 1 [0x84#8, 1#8, 2#8, 3#8]).calib = some exampleTable := by decide

theorem witness_StopMarkerBytes :
    memRead (scanning 1 [0x80#8]).inBuf 1 0 1 = some [ready.params.hdrEmpty] ∧
      memRead (scanning 1 [0x44#8]).inBuf 1 0 1 = some [ready.params.hdrCfgErr] ∧
      (scanning 1 [0x80#8]).scan = some ⟨1, 1, 0, 0⟩ := by decide

theorem witness_OtherBytesAdvanceByOne :
    memRead (scanning 1 [0x48#8]).inBuf 1 0 1 = some [ready.params.hdrCfgChg] ∧
      memRead (scanning 1 [0x95#8]).inBuf 1 0 1 = some [0x95#8] ∧
      (0x95#8 : Byte) ∉ [ready.params.hdrEmpty, ready.params.hdrCfgErr, ready.params.hdrTime,
        ready.params.hdrPress, ready.params.hdrTemp, ready.params.hdrTempPress] ∧
      memRead (scanning 1 [0x94#8]).inBuf 1 0 1 = some [ready.params.hdrTempPress] := by decide

theorem witness_CutFramesStop :
    memRead (scanning 1 [0x90#8, 0#8, 0#8]).inBuf 3 0 1 = some [ready.params.hdrTemp] ∧ 3 < 0 + 4 ∧
      memRead (scanning 1 [0x94#8, 0#8, 0#8, 0#8, 0#8, 0#8]).inBuf 6 0 1 = some [ready.params.hdrTempPress] ∧
      6 < 0 + 7 ∧ ready.params.combined = .split ∧ (scanning 1 [0x90#8, 0#8, 0#8]).scan = some ⟨3, 1, 0, 0⟩ := by
  decide

theorem witness_ScanAlwaysEnds :
    (scanning 2 burstBytes).Inv ∧ (scanning 2 burstBytes).params.headersDistinct = true ∧
      (scanning 2 burstBytes).scan = some ⟨9, 2, 0, 0⟩ := ⟨scanning_Inv, by decide, rfl⟩

theorem witness_ScanMatchesTheDecodeLoop :
    (scanning 2 burstBytes).params.headersDistinct = true ∧ (scanning 2 burstBytes).calib = some exampleTable ∧
      (scanning 2 burstBytes).inBuf = Memory.ofList 0 burstBytes ∧
      (scanning 2 burstBytes).scan = some ⟨burstBytes.length, 2, 0, 0⟩ := by decide

end Sys2Proof.Tests
end

section
/-! SUPPORT. Laws of `wrap64` and the wrapping operations, which need their arguments only modulo `2^64`
(00_scope.md R12, 41_compensation.md R133). -/

namespace Sys2Proof.Machine

theorem wrap64_range (v : Int) : -2 ^ 63 ≤ wrap64 v ∧ wrap64 v < 2 ^ 63 :=
  ⟨Int.le_bmod (by decide), Int.bmod_lt (by decide)⟩

theorem dvd_wrap64_sub_self (v : Int) : (2 ^ 64 : Int) ∣ wrap64 v - v :=
  Int.dvd_bmod_sub_self

@[simp] theorem wrap64_wrap64_mul (a b : Int) : wrap64 (wrap64 a * b) = wrap64 (a * b) :=
  Int.bmod_mul_bmod

@[simp] theorem wrap64_mul_wrap64 (a b : Int) : wrap64 (a * wrap64 b) = wrap64 (a * b) :=
  Int.mul_bmod_bmod

@[simp] theorem wrap64_wrap64_add (a b : Int) : wrap64 (wrap64 a + b) = wrap64 (a + b) :=
  Int.bmod_add_bmod

@[simp] theorem wrap64_add_wrap64 (a b : Int) : wrap64 (a + wrap64 b) = wrap64 (a + b) :=
  Int.add_bmod_bmod

theorem mulW_mulW (a b c : Int) : mulW (mulW a b) c = wrap64 (a * b * c) := by
  simp [mulW]

theorem addW_addW (a b c : Int) : addW (addW a b) c = wrap64 (a + b + c) := by
  simp [addW]

theorem mulW_addW (a b c : Int) : mulW a (addW b c) = addW (mulW a b) (mulW a c) := by
  simp [mulW, addW, mul_add]

end Sys2Proof.Machine
end

section
/-! SUPPORT. What the rounding of 00_scope.md R15 computes, over the rationals: the scaled quotient lies in
`2^(prec-1) .. 2^prec`, and the significand is the natural nearest to it. -/

namespace Sys2Proof.Machine

theorem scaleUp_pos {x : Nat} (hx : 0 < x) (e : Int) : 0 < scaleUp x e :=
  Nat.mul_pos hx (Nat.two_pow_pos _)

/-- Scaling the numerator by `-e` and the denominator by `e` divides the ratio by `2^e`: one of the two is idle. -/
theorem scaleUp_ratio (num den : Nat) (e : Int) :
    (scaleUp num (-e) : ℚ) / scaleUp den e = num / den / 2 ^ e := by
  obtain ⟨n, rfl | rfl⟩ := e.eq_nat_or_neg
  · simp [scaleUp, div_div]
  · simp [scaleUp, mul_div_right_comm]

/-- The comparison `log2Ratio` makes is the one of `2^k` with the ratio. -/
theorem scaleUp_le_scaleUp_iff {num den : Nat} (hden : 0 < den) (k : Int) :
    scaleUp den k ≤ scaleUp num (-k) ↔ (2 : ℚ) ^ k ≤ num / den := by
  have hs : (0 : ℚ) < scaleUp den k := Nat.cast_pos.2 (scaleUp_pos hden k)
  rw [← one_le_div₀ (zpow_pos two_pos k), ← scaleUp_ratio, one_le_div₀ hs, Nat.cast_le]

/-- The exponents of numerator and denominator give that of the ratio up to one. -/
theorem ratio_between_powers {num den : Nat} (hnum : 0 < num) (hden : 0 < den) :
    (2 : ℚ) ^ ((num.log2 : Int) - den.log2 - 1) ≤ num / den ∧
      (num : ℚ) / den < 2 ^ ((num.log2 : Int) - den.log2 + 1) := by
  have hd : (0 : ℚ) < den := Nat.cast_pos.2 hden
  have num_ge : (2 : ℚ) ^ num.log2 ≤ num := mod_cast Nat.log2_self_le hnum.ne'
  have num_lt : (num : ℚ) < 2 ^ (num.log2 + 1) := mod_cast Nat.lt_log2_self
  have den_ge : (2 : ℚ) ^ den.log2 ≤ den := mod_cast Nat.log2_self_le hden.ne'
  have den_lt : (den : ℚ) < 2 ^ (den.log2 + 1) := mod_cast Nat.lt_log2_self
  constructor
  · calc (2 : ℚ) ^ ((num.log2 : Int) - den.log2 - 1)
        = 2 ^ num.log2 / 2 ^ (den.log2 + 1) := by
          rw [sub_sub, zpow_sub₀ two_ne_zero]; norm_cast
      _ ≤ num / den := div_le_div₀ num.cast_nonneg num_ge hd den_lt.le
  · calc (num : ℚ) / den < 2 ^ (num.log2 + 1) / 2 ^ den.log2 :=
          div_lt_div₀ num_lt den_ge (by positivity) (by positivity)
      _ = 2 ^ ((num.log2 : Int) - den.log2 + 1) := by
          rw [sub_add_eq_add_sub, zpow_sub₀ two_ne_zero]; norm_cast

/-- `log2Ratio` is the exponent of the leading bit of the ratio. -/
theorem log2Ratio_spec {num den : Nat} (hnum : 0 < num) (hden : 0 < den) :
    (2 : ℚ) ^ log2Ratio num den ≤ num / den ∧ (num : ℚ) / den < 2 ^ (log2Ratio num den + 1) := by
  obtain ⟨lower, upper⟩ := ratio_between_powers hnum hden
  simp only [log2Ratio, scaleUp_le_scaleUp_iff hden]
  split
  · next h => exact ⟨h, upper⟩
  · next h => exact ⟨lower, by simpa using h⟩

/-- The quotient is kept or raised by one as the remainder is below or above half the denominator; at one half the
result is even. -/
theorem divNearestEven_cases (num den : Nat) :
    (divNearestEven num den = num / den ∧ 2 * (num % den) ≤ den ∨
        divNearestEven num den = num / den + 1 ∧ den ≤ 2 * (num % den)) ∧
      (2 * (num % den) = den → divNearestEven num den % 2 = 0) := by
  simp only [divNearestEven]
  split
  · omega
  · split <;> omega

theorem le_divNearestEven {num den a : Nat} (hden : 0 < den) (h : a * den ≤ num) :
    a ≤ divNearestEven num den := by
  have hq : a ≤ num / den := (Nat.le_div_iff_mul_le hden).2 h
  obtain ⟨⟨hm, -⟩ | ⟨hm, -⟩, -⟩ := divNearestEven_cases num den <;> omega

theorem divNearestEven_le {num den b : Nat} (hden : 0 < den) (h : num ≤ b * den) :
    divNearestEven num den ≤ b := by
  have hq : num / den ≤ b := Nat.div_le_of_le_mul (by rwa [mul_comm])
  obtain ⟨⟨hm, -⟩ | ⟨hm, hr⟩, -⟩ := divNearestEven_cases num den
  · omega
  · have hlt : num / den < b := by
      refine (Nat.div_lt_iff_lt_mul hden).2 (lt_of_le_of_ne h ?_)
      rintro rfl
      rw [Nat.mul_mod_left] at hr
      omega
    omega

/-- `divNearestEven` is within half a unit of the ratio, and even when exactly half a unit away. -/
theorem divNearestEven_nearest {num den : Nat} (hden : 0 < den) :
    2 * |(num : ℚ) / den - divNearestEven num den| ≤ 1 ∧
      (2 * |(num : ℚ) / den - divNearestEven num den| = 1 → divNearestEven num den % 2 = 0) := by
  have hd : (0 : ℚ) < den := Nat.cast_pos.2 hden
  have ratio : (num : ℚ) / den = (num / den : Nat) + (num % den : Nat) / den := by
    rw [div_eq_iff hd.ne', add_mul, div_mul_cancel₀ _ hd.ne']
    exact_mod_cast (Nat.div_add_mod' num den).symm
  have frac_lt : ((num % den : Nat) : ℚ) / den < 1 :=
    (div_lt_one hd).2 (Nat.cast_lt.2 (Nat.mod_lt num hden))
  have half_iff : 2 * (((num % den : Nat) : ℚ) / den) = 1 ↔ 2 * (num % den) = den := by
    rw [← mul_div_assoc, div_eq_one_iff_eq hd.ne']; norm_cast
  obtain ⟨⟨hm, hr⟩ | ⟨hm, hr⟩, even⟩ := divNearestEven_cases num den
  · have half : 2 * (((num % den : Nat) : ℚ) / den) ≤ 1 := by
      rw [← mul_div_assoc, div_le_one hd]; exact_mod_cast hr
    have error : |(num : ℚ) / den - divNearestEven num den| = (num % den : Nat) / den := by
      rw [hm, ratio, add_sub_cancel_left, abs_of_nonneg (by positivity)]
    rw [error]
    exact ⟨half, fun h => even (half_iff.1 h)⟩
  · have half : 1 ≤ 2 * (((num % den : Nat) : ℚ) / den) := by
      rw [← mul_div_assoc, one_le_div hd]; exact_mod_cast hr
    have error : |(num : ℚ) / den - divNearestEven num den| = 1 - (num % den : Nat) / den := by
      rw [hm, ratio, Nat.cast_add_one, add_sub_add_left_eq_sub, abs_sub_comm, abs_of_pos (sub_pos.2 frac_lt)]
    rw [error]
    exact ⟨by linarith, fun h => even (half_iff.1 (by linarith))⟩

theorem roundRatio_of_pos (prec : Nat) (neg : Bool) {num : Nat} (den : Nat) (hnum : 0 < num) :
    roundRatio prec neg num den =
      let e := log2Ratio num den - ((prec : Int) - 1)
      ⟨neg, divNearestEven (scaleUp num (-e)) (scaleUp den e), e⟩ :=
  if_neg hnum.ne'

/-- Scaled by the exponent `roundRatio` chooses, the ratio has `prec` bits before the point. -/
theorem scaleUp_range {prec num den : Nat} (hprec : 0 < prec) (hnum : 0 < num) (hden : 0 < den) :
    let e := log2Ratio num den - ((prec : Int) - 1)
    2 ^ (prec - 1) * scaleUp den e ≤ scaleUp num (-e) ∧ scaleUp num (-e) < 2 ^ prec * scaleUp den e := by
  intro e
  obtain ⟨lower, upper⟩ := log2Ratio_spec hnum hden
  have hs : (0 : ℚ) < scaleUp den e := Nat.cast_pos.2 (scaleUp_pos hden e)
  have he : (0 : ℚ) < 2 ^ e := zpow_pos two_pos e
  have low_exp : (2 : ℚ) ^ (prec - 1) * 2 ^ e = 2 ^ log2Ratio num den := by
    rw [← zpow_natCast, ← zpow_add₀ two_ne_zero]; congr 1; omega
  have high_exp : (2 : ℚ) ^ prec * 2 ^ e = 2 ^ (log2Ratio num den + 1) := by
    rw [← zpow_natCast, ← zpow_add₀ two_ne_zero]; congr 1; omega
  constructor
  · have h : (2 : ℚ) ^ (prec - 1) ≤ scaleUp num (-e) / scaleUp den e := by
      rwa [scaleUp_ratio, le_div_iff₀ he, low_exp]
    exact_mod_cast (le_div_iff₀ hs).1 h
  · have h : (scaleUp num (-e) : ℚ) / scaleUp den e < 2 ^ prec := by
      rwa [scaleUp_ratio, div_lt_iff₀ he, high_exp]
    exact_mod_cast (div_lt_iff₀ hs).1 h

theorem roundRatio_man_range {prec : Nat} (neg : Bool) {num den : Nat} (hprec : 0 < prec) (hnum : 0 < num)
    (hden : 0 < den) :
    2 ^ (prec - 1) ≤ (roundRatio prec neg num den).man ∧ (roundRatio prec neg num den).man ≤ 2 ^ prec := by
  rw [roundRatio_of_pos prec neg den hnum]
  obtain ⟨lower, upper⟩ := scaleUp_range hprec hnum hden
  exact ⟨le_divNearestEven (scaleUp_pos hden _) lower, divNearestEven_le (scaleUp_pos hden _) upper.le⟩

/-- The rounding error is that of `divNearestEven` on the scaled ratio, in units of the last place. -/
theorem roundRatio_error (prec : Nat) (neg : Bool) (num den : Nat) :
    let x := roundRatio prec neg num den
    |(num : ℚ) / den - x.man * 2 ^ x.exp| =
      |(scaleUp num (-x.exp) : ℚ) / scaleUp den x.exp - x.man| * 2 ^ x.exp := by
  intro x
  have he : (0 : ℚ) < 2 ^ x.exp := zpow_pos two_pos _
  rw [← abs_of_pos he, ← abs_mul, abs_of_pos he, sub_mul, scaleUp_ratio, div_mul_cancel₀ _ he.ne']

theorem roundRatio_nearest (prec : Nat) (neg : Bool) {num den : Nat} (hnum : 0 < num) (hden : 0 < den) :
    let x := roundRatio prec neg num den
    2 * |(num : ℚ) / den - x.man * 2 ^ x.exp| ≤ 2 ^ x.exp ∧
      (2 * |(num : ℚ) / den - x.man * 2 ^ x.exp| = 2 ^ x.exp → x.man % 2 = 0) := by
  intro x
  have he : (0 : ℚ) < 2 ^ x.exp := zpow_pos two_pos _
  have hman : x.man = divNearestEven (scaleUp num (-x.exp)) (scaleUp den x.exp) := by
    simp only [x, roundRatio_of_pos prec neg den hnum]
  have nearest := divNearestEven_nearest (num := scaleUp num (-x.exp)) (scaleUp_pos hden x.exp)
  rw [← hman] at nearest
  rwa [roundRatio_error prec neg num den, ← mul_assoc, mul_le_iff_le_one_left he, mul_eq_right₀ he.ne']

end Sys2Proof.Machine
end

section
/-! SUPPORT. The first thing a step looks at: whether the header values are distinct (00_scope.md R8). -/

namespace Sys2Proof.Machine

theorem fetch_of_equal_headers {s : State} (h : ¬ s.params.headers.Nodup) : fetch s = .refused .equalHeaders := by
  have hd : s.params.headersDistinct = false := decide_eq_false h
  simp [fetch, hd]

theorem step_of_equal_headers {s : State} (h : ¬ s.params.headers.Nodup) : step s = .refused .equalHeaders := by
  simp [step, fetch_of_equal_headers h]

end Sys2Proof.Machine
end

section
/-! The obligations of 00_scope.md, settled. -/

namespace Sys2Proof.Machine

/-- Settles O38: each operation wraps once at the end, so the grouping inside does not matter. -/
theorem wrapIsARingMap : Obligations.WrapIsARingMap := by
  refine ⟨fun v => ?_, fun a b c => ⟨mulW_mulW a b c, addW_addW a b c, mulW_addW a b c⟩⟩
  obtain ⟨lower, upper⟩ := wrap64_range v
  exact ⟨lower, upper, dvd_wrap64_sub_self v⟩

/-- Settles O40, from the range of the significand and the error of the rounded quotient. -/
theorem roundingIsNearestEven : Obligations.RoundingIsNearestEven := by
  intro prec neg num den hprec hnum hden x
  obtain ⟨lower, upper⟩ := roundRatio_man_range neg hprec hnum hden
  have hneg : x.neg = neg := congrArg Flt.neg (roundRatio_of_pos prec neg den hnum)
  exact ⟨hneg, lower, upper, roundRatio_nearest prec neg hnum hden⟩

/-- Settles O11: the fetch refuses before it looks at a scan or a request. -/
theorem equalHeadersAreRefused : Obligations.EqualHeadersAreRefused :=
  fun _ h => step_of_equal_headers h

end Sys2Proof.Machine
end

section
/-! SUPPORT. The range of `CompT` (10_state.md R26, 41_compensation.md R121, R125): its polynomial never wraps, so its
bounds are those of `t2 * d * 2^18 + t3 * d^2` over the integers. -/

namespace Sys2Proof.Machine

theorem wrap64_of_range {v : Int} (lower : -2 ^ 63 ≤ v) (upper : v < 2 ^ 63) : wrap64 v = v :=
  Int.bmod_eq_of_le lower upper

theorem toInt_ofInt64_of_range {v : Int} (lower : -2 ^ 63 ≤ v) (upper : v < 2 ^ 63) :
    (BitVec.ofInt 64 v).toInt = v :=
  (BitVec.toInt_ofInt v).trans (wrap64_of_range lower upper)

/-- The difference `d` of `CompT` (41_compensation.md R121). -/
def compTDiff (t : Calib) (raw : Raw) : Int := raw.toNat - 256 * t1Z t

theorem compTDiff_range (t : Calib) (raw : Raw) : -16776960 ≤ compTDiff t raw ∧ compTDiff t raw ≤ 16777215 := by
  have := raw.isLt
  have := t.t1.isLt
  simp only [compTDiff, t1Z]
  omega

theorem t2Z_range (t : Calib) : 0 ≤ t2Z t ∧ t2Z t ≤ 65535 := by
  have := t.t2.isLt
  simp only [t2Z]
  omega

theorem t3Z_range (t : Calib) : -128 ≤ t3Z t ∧ t3Z t ≤ 127 := by
  have := t.t3.toInt_lt
  have := t.t3.le_toInt
  simp only [t3Z]
  omega

theorem compTPoly_eq_wrap64 (t : Calib) (raw : Raw) :
    compTPoly t raw =
      wrap64 (compTDiff t raw * t2Z t * 262144 + compTDiff t raw * compTDiff t raw * t3Z t) := by
  simp only [compTPoly, mulW_mulW]
  simp [addW, compTDiff]

/-- The linear term outweighs the square: the least value is at the least `d` and `t3` and the greatest `t2`, the
greatest at the greatest of all three. -/
theorem compT_terms_range {d t2 t3 : Int} (hd : -16776960 ≤ d ∧ d ≤ 16777215) (h2 : 0 ≤ t2 ∧ t2 ≤ 65535)
    (h3 : -128 ≤ t3 ∧ t3 ≤ 127) :
    -16776960 * 65535 * 262144 - 16776960 * 16776960 * 128 ≤ d * t2 * 262144 + d * d * t3 ∧
      d * t2 * 262144 + d * d * t3 ≤ 16777215 * 65535 * 262144 + 16777215 * 16777215 * 127 := by
  have square_ge : d * d * -128 ≤ d * d * t3 := mul_le_mul_of_nonneg_left h3.1 (mul_self_nonneg d)
  have square_le : d * d * t3 ≤ d * d * 127 := mul_le_mul_of_nonneg_left h3.2 (mul_self_nonneg d)
  obtain hneg | hpos := le_total d 0
  · have linear_ge : -16776960 * 65535 ≤ d * t2 := by nlinarith
    have linear_le : d * t2 ≤ 0 := mul_nonpos_of_nonpos_of_nonneg hneg h2.1
    have d_sq : d * d ≤ 16776960 * 16776960 := by nlinarith
    omega
  · have linear_ge : 0 ≤ d * t2 := mul_nonneg hpos h2.1
    have linear_le : d * t2 ≤ 16777215 * 65535 := mul_le_mul hd.2 h2.2 h2.1 (by decide)
    have d_sq : d * d ≤ 16777215 * 16777215 := mul_le_mul hd.2 hd.2 hpos (by decide)
    omega

/-- No operation of the polynomial wraps (41_compensation.md R121). -/
theorem compTPoly_eq (t : Calib) (raw : Raw) :
    compTPoly t raw = compTDiff t raw * t2Z t * 262144 + compTDiff t raw * compTDiff t raw * t3Z t := by
  obtain ⟨lower, upper⟩ := compT_terms_range (compTDiff_range t raw) (t2Z_range t) (t3Z_range t)
  rw [compTPoly_eq_wrap64, wrap64_of_range (by omega) (by omega)]

theorem compTFine_range (t : Calib) (raw : Raw) :
    -75495168 ≤ compTFine t raw ∧ compTFine t raw ≤ 75430907 := by
  obtain ⟨lower, upper⟩ := compT_terms_range (compTDiff_range t raw) (t2Z_range t) (t3Z_range t)
  rw [compTFine, tdivZ, compTPoly_eq]
  exact ⟨le_trans (by decide) (Int.tdiv_le_tdiv (by decide) lower),
    le_trans (Int.tdiv_le_tdiv (by decide) upper) (by decide)⟩

theorem compT100_range {tf : Int} (lower : -75495168 ≤ tf) (upper : tf ≤ 75430907) :
    -115196 ≤ compT100 tf ∧ compT100 tf ≤ 115098 := by
  rw [compT100, tdivZ, mulW, wrap64_of_range (by omega) (by omega)]
  exact ⟨le_trans (by decide) (Int.tdiv_le_tdiv (by decide) (mul_le_mul_of_nonneg_right lower (by decide))),
    le_trans (Int.tdiv_le_tdiv (by decide) (mul_le_mul_of_nonneg_right upper (by decide))) (by decide)⟩

end Sys2Proof.Machine
end

section
/-! SUPPORT. What the invariant of Safety.lean asks, kept by each update of the state (10_state.md R23, R26, R28,
R30; 20_memory.md R41). -/

namespace Sys2Proof.Machine

variable {s t : State}

/-- The part of the state the invariant speaks of: the block's fields, the scan and the host's buffers. -/
def State.stored (s : State) : Bool × Option Calib × Word64 × Option Scan × List Host.Cell × List Host.Cell ×
    List (Nat × Frame) :=
  (s.inited, s.calib, s.tFine, s.scan, s.inBuf, s.outBuf, s.frames)

/-- The interface to the host and the bus has no part in the invariant. -/
theorem State.Inv.of_stored (h : s.Inv) (e : t.stored = s.stored) : t.Inv := by
  simp only [State.stored, Prod.mk.injEq] at e
  obtain ⟨hinited, hcalib, htFine, hscan, hin, hout, hframes⟩ := e
  constructor
  case inBuf_wf => exact hin ▸ h.inBuf_wf
  case outBuf_wf => exact hout ▸ h.outBuf_wf
  case frames_wf => exact hframes ▸ h.frames_wf
  case calib => rw [hinited, hcalib]; exact h.calib
  case tFine_ge => exact htFine ▸ h.tFine_ge
  case tFine_le => exact htFine ▸ h.tFine_le
  case frame_data => exact hframes ▸ h.frame_data
  case scan =>
    intro sc hs
    obtain ⟨cursor_le, count_le, len_le, cap_le, inited, listed⟩ := h.scan sc (hscan ▸ hs)
    exact ⟨cursor_le, count_le, len_le, cap_le, hinited ▸ inited, hin ▸ listed⟩

theorem State.Inv.accept (h : s.Inv) (rest : List Request) : (s.accept rest).Inv := h.of_stored rfl

theorem State.Inv.issue (h : s.Inv) (ev : BusEvent) (rest : List BusAnswer) : (s.issue ev rest).Inv :=
  h.of_stored rfl

theorem State.Inv.waited (h : s.Inv) : s.waited.Inv := h.of_stored rfl

theorem State.Inv.respond (h : s.Inv) (k : Byte) (r : Results) : (s.respond k r).Inv := h.of_stored rfl

theorem State.Inv.initialise (h : s.Inv) (c : Calib) : (s.initialise c).Inv :=
  { h with
    calib := fun _ => rfl
    scan := fun sc hs => { h.scan sc hs with inited := rfl } }

theorem State.Inv.deinitialise (h : s.Inv) (hs : s.scan = none) : s.deinitialise.Inv :=
  { h with calib := nofun, scan := fun sc hsc => by simp [hs] at hsc }

/-- A value of `CompT` may be written to the fine temperature (10_state.md R26). -/
theorem State.Inv.setTFine (h : s.Inv) (c : Calib) (raw : Raw) : (s.setTFine (compT c raw).1).Inv := by
  obtain ⟨lower, upper⟩ := compTFine_range c raw
  have value : (s.setTFine (compT c raw).1).tFine.toInt = compTFine c raw :=
    toInt_ofInt64_of_range (v := compTFine c raw) (by omega) (by omega)
  exact { h with
    tFine_ge := value ▸ lower
    tFine_le := value ▸ upper
    scan := fun sc hs => { h.scan sc hs with } }

theorem State.Inv.fillOut (h : s.Inv) (bs : List Byte) : (s.fillOut bs).Inv :=
  { h with
    outBuf_wf := Memory.wf_writeAll h.outBuf_wf 0 bs
    scan := fun sc hs => { h.scan sc hs with } }

theorem State.Inv.spoilOut (h : s.Inv) (n : Nat) : (s.spoilOut n).Inv :=
  { h with
    outBuf_wf := Memory.wf_writeAll h.outBuf_wf 0 _
    scan := fun sc hs => { h.scan sc hs with } }

/-- The whole payload is listed in the input buffer as the scan begins (20_memory.md R41). -/
theorem State.Inv.beginScan (h : s.Inv) (hi : s.inited = true) {payload : List Byte}
    (hlen : payload.length ≤ maxPayload) (cap : Word16) : (s.beginScan cap.toNat payload).Inv :=
  { h with
    inBuf_wf := Memory.wf_ofList 0 payload
    scan := by
      intro sc hs
      obtain rfl : (⟨payload.length, cap.toNat, 0, 0⟩ : Scan) = sc := Option.some.inj hs
      have cap_lt := cap.isLt
      refine ⟨Nat.zero_le _, Nat.zero_le _, hlen, by dsimp only; omega, hi, fun a ha => ?_⟩
      simpa [Memory.read_ofList] using ha }

theorem State.Inv.endScan (h : s.Inv) (sc : Scan) : (s.endScan sc).Inv :=
  { h with scan := nofun }

theorem State.Inv.moveScan (h : s.Inv) {sc : Scan} (hs : s.scan = some sc) {n : Nat}
    (hfits : sc.cursor + n ≤ sc.len) : (s.moveScan sc n).Inv :=
  { h with
    scan := by
      rintro _ ⟨⟩
      exact { h.scan sc hs with cursor_le := hfits } }

/-- A frame with the data its type asks for (10_state.md R30) is written while the scan has room for it. -/
theorem State.Inv.emit (h : s.Inv) {sc : Scan} (hs : s.scan = some sc) {n : Nat} {f : Frame}
    (hfits : sc.cursor + n ≤ sc.len) (hroom : sc.count < sc.cap)
    (hf : f.data.isSome = true ↔ f.type ≠ .sensorTime) : (s.emit sc n f).Inv :=
  { h with
    frames_wf := Memory.wf_write h.frames_wf sc.count f
    frame_data := by
      intro k g hg
      rw [State.emit_frames, Memory.read_write] at hg
      split at hg
      · obtain rfl := Option.some.inj hg
        exact hf
      · exact h.frame_data k g hg
    scan := by
      rintro _ ⟨⟩
      exact { h.scan sc hs with cursor_le := hfits, count_le := hroom } }

theorem State.Inv.emitTemp (h : s.Inv) {sc : Scan} (hs : s.scan = some sc) {n : Nat}
    (hfits : sc.cursor + n ≤ sc.len) (hroom : sc.count < sc.cap) (c : Calib) (raw : Raw) :
    (emitTemp c raw sc n s).Inv :=
  (h.setTFine c raw).emit hs hfits hroom (by simp)

theorem State.Inv.emitPress (h : s.Inv) {sc : Scan} (hs : s.scan = some sc) {n : Nat}
    (hfits : sc.cursor + n ≤ sc.len) (hroom : sc.count < sc.cap) (c : Calib) (raw : Raw) :
    (emitPress c raw sc n s).Inv :=
  h.emit hs hfits hroom (by simp)

end Sys2Proof.Machine
end

section
/-! SUPPORT. What the decoders answer, as far as a scan's bounds need it: commands with a payload of the allowed
length (30_encoding.md R64), frames no longer than the bytes they are decoded from (R68, R71). -/

namespace Sys2Proof

theorem formZ_ok {w : CommandWord} {i j : Instr} (h : formZ w j = .ok i) : i = j := by
  unfold formZ at h
  split at h <;> cases h
  rfl

theorem formC_ok {w : CommandWord} {i j : Instr} (h : formC w j = .ok i) : i = j := by
  unfold formC at h
  split at h <;> cases h
  rfl

/-- A word decodes to a host command, and to FIFO_PARSE with the payload of its request under its own opcode only. -/
theorem decodeWord_ok {w : CommandWord} {payload : List Byte} {i : Instr} (h : decodeWord w payload = .ok i) :
    i.isCommand = true ∧ ∀ cap q, i = .fifoParse cap q → opcodeOf w = 0x21#8 ∧ q = payload := by
  unfold decodeWord at h
  split_ifs at h with _ _ _ _ _ _ hop
  · cases formZ_ok h; exact ⟨rfl, nofun⟩
  · cases formZ_ok h; exact ⟨rfl, nofun⟩
  · cases h; exact ⟨rfl, nofun⟩
  · cases h; exact ⟨rfl, nofun⟩
  · cases formZ_ok h; exact ⟨rfl, nofun⟩
  · cases formC_ok h; exact ⟨rfl, nofun⟩
  · cases formC_ok h
    refine ⟨rfl, ?_⟩
    rintro cap q ⟨⟩
    exact ⟨hop, rfl⟩

theorem decodeRequest_ok {w : CommandWord} {payload : List Byte} {i : Instr}
    (h : decodeRequest w payload = .ok i) :
    decodeWord w payload = .ok i ∧ checkPayload w payload = .ok () := by
  unfold decodeRequest at h
  split at h
  · cases h
  · next hw =>
    split at h
    · cases h
    · next hp => cases h; exact ⟨hw, hp⟩

theorem decodeRequest_isCommand {w : CommandWord} {payload : List Byte} {i : Instr}
    (h : decodeRequest w payload = .ok i) : i.isCommand = true :=
  (decodeWord_ok (decodeRequest_ok h).1).1

theorem decodeRequest_payload_le {w : CommandWord} {payload q : List Byte} {cap : Word16}
    (h : decodeRequest w payload = .ok (.fifoParse cap q)) : q.length ≤ maxPayload := by
  obtain ⟨hw, hp⟩ := decodeRequest_ok h
  obtain ⟨hop, rfl⟩ := (decodeWord_ok hw).2 cap q rfl
  rw [checkPayload, if_pos hop] at hp
  by_contra hlong
  rw [if_neg hlong] at hp
  cases hp

/-- How far a frame moves the cursor at most (30_encoding.md R69, R71). -/
def frameSpan : Instr → Nat
  | .hdrTime _ => 4
  | .hdrPress _ => 4
  | .hdrTemp _ => 4
  | .hdrTempPress _ _ => 7
  | _ => 1

theorem frameSpan_pos (i : Instr) : 1 ≤ frameSpan i := by
  unfold frameSpan
  split <;> decide

theorem oneField_ok {mk : Raw → Instr} {bs : List Byte} {i : Instr} (h : oneField mk bs = .ok i) :
    3 ≤ bs.length ∧ ∃ raw, i = mk raw := by
  unfold oneField at h
  split at h <;> cases h
  exact ⟨by simp, _, rfl⟩

theorem twoFields_ok {mk : Raw → Raw → Instr} {bs : List Byte} {i : Instr} (h : twoFields mk bs = .ok i) :
    6 ≤ bs.length ∧ ∃ rawT rawP, i = mk rawT rawP := by
  unfold twoFields at h
  split at h <;> cases h
  exact ⟨by simp, _, _, rfl⟩

theorem decodeFrame_ok {p : Params} {bs : List Byte} {i : Instr} (h : decodeFrame p bs = .ok i) :
    i.isCommand = false ∧ frameSpan i ≤ bs.length := by
  cases bs with
  | nil => cases h
  | cons b rest =>
    simp only [decodeFrame] at h
    split_ifs at h
    · cases h; simp [Instr.isCommand, frameSpan]
    · cases h; simp [Instr.isCommand, frameSpan]
    · obtain ⟨hlen, raw, rfl⟩ := oneField_ok h; exact ⟨rfl, Nat.succ_le_succ hlen⟩
    · obtain ⟨hlen, raw, rfl⟩ := oneField_ok h; exact ⟨rfl, Nat.succ_le_succ hlen⟩
    · obtain ⟨hlen, raw, rfl⟩ := oneField_ok h; exact ⟨rfl, Nat.succ_le_succ hlen⟩
    · obtain ⟨hlen, rawT, rawP, rfl⟩ := twoFields_ok h; exact ⟨rfl, Nat.succ_le_succ hlen⟩
    · cases h; simp [Instr.isCommand, frameSpan]

end Sys2Proof
end

section
/-! SUPPORT. Every instruction keeps the invariant: a host command outside a scan, a frame inside one that fits the
bytes left. -/

namespace Sys2Proof.Machine

variable {s t : State}

theorem InitEffect.inv (e : InitEffect s t) (h : s.Inv) : t.Inv := by
  cases e with
  | notLinked => exact h.respond _ _
  | openFails => exact (h.issue _ _).respond _ _
  | identity => exact (((h.issue _ _).issue _ _).issue _ _).respond _ _
  | resetFails => exact ((((h.issue _ _).issue _ _).issue _ _).issue _ _).respond _ _
  | calibFails => exact ((((((h.issue _ _).issue _ _).issue _ _).waited).issue _ _).issue _ _).respond _ _
  | success => exact ((((((h.issue _ _).issue _ _).issue _ _).waited).issue _ _).initialise _).respond _ _

theorem CommandEffect.inv {i : Instr} (e : CommandEffect s i t) (h : s.Inv) (hs : s.scan = none)
    (hlen : ∀ cap payload, i = .fifoParse cap payload → payload.length ≤ maxPayload) : t.Inv := by
  cases e with
  | init e => exact e.inv h
  | deinit => exact ((h.issue _ _).deinitialise hs).respond _ _
  | deinitFails => exact (h.issue _ _).respond _ _
  | gate => exact h.respond _ _
  | compTemp => exact (h.setTFine _ _).respond _ _
  | compTempFails => exact h.respond _ _
  | compPress => exact h.respond _ _
  | compPressFails => exact h.respond _ _
  | readTpFails => exact (h.issue _ _).respond _ _
  | readTpPrecond => exact (h.issue _ _).respond _ _
  | readTp => exact ((h.issue _ _).setTFine _ _).respond _ _
  | fifoLengthFails => exact (h.issue _ _).respond _ _
  | fifoTooSmall => exact (h.issue _ _).respond _ _
  | fifoEmpty => exact (h.issue _ _).respond _ _
  | burstFails => exact (((h.issue _ _).issue _ _).spoilOut _).respond _ _
  | burst => exact (((h.issue _ _).issue _ _).fillOut _).respond _ _
  | fifoParse hi => exact h.beginScan hi (hlen _ _ rfl) _

theorem FrameEffect.inv {i : Instr} (e : FrameEffect s i t) (h : s.Inv)
    (hfits : ∀ sc, s.scan = some sc → sc.cursor + frameSpan i ≤ sc.len) : t.Inv := by
  cases e with
  | full => exact h.endScan _
  | stop => exact h.endScan _
  | skip hs => exact h.moveScan hs (le_trans (Nat.add_le_add_left (frameSpan_pos i) _) (hfits _ hs))
  | time hs hr => exact h.emit hs (hfits _ hs) hr (by simp)
  | press hs hr => exact h.emitPress hs (hfits _ hs) hr _ _
  | temp hs hr => exact h.emitTemp hs (hfits _ hs) hr _ _
  | halfPair hs hr => exact (h.emitTemp hs (h.scan _ hs).cursor_le hr _ _).endScan _
  | @pair rawT rawP sc c hs hr _ _ hroom =>
    have half : (emitTemp c rawT sc 0 s).Inv := h.emitTemp hs (h.scan sc hs).cursor_le hr c rawT
    exact half.emitPress (sc := { sc with count := sc.count + 1 }) rfl (hfits sc hs) hroom _ _

theorem length_of_memRead {m : List Host.Cell} {len a n : Nat} {bs : List Byte}
    (h : memRead m len a n = some bs) : bs.length = n := by
  unfold memRead at h
  split at h
  · exact Memory.length_readAll h
  · cases h

theorem NextFrame.fits {sc : Scan} {i : Instr} (h : NextFrame s sc i) :
    i.isCommand = false ∧ sc.cursor + frameSpan i ≤ sc.len := by
  obtain ⟨-, -, b, bs, -, hfit, hbs, hi⟩ := h
  obtain ⟨hframe, hspan⟩ := decodeFrame_ok hi
  have hlen : bs.length = frameLength s.params b := length_of_memRead hbs
  exact ⟨hframe, by omega⟩

theorem step_inv (h : s.Inv) (hstep : step s = .next t) : t.Inv := by
  obtain ⟨-, ⟨sc, hs, ⟨-, rfl⟩ | ⟨i, hnext, hexec⟩⟩ |
    ⟨hs, ⟨-, rfl⟩ | ⟨r, rest, i, -, hdec, hexec⟩⟩⟩ := step_next hstep
  · exact h.endScan sc
  · obtain ⟨hframe, hfits⟩ := hnext.fits
    refine (exec_frame_next hframe hexec).inv h fun sc' hs' => ?_
    obtain rfl : sc = sc' := Option.some.inj (hs.symm.trans hs')
    exact hfits
  · exact h
  · refine (exec_command_next (decodeRequest_isCommand hdec) hexec).inv (h.accept rest) hs ?_
    rintro cap payload rfl
    exact decodeRequest_payload_le hdec

end Sys2Proof.Machine
end

section
/-! SUPPORT. From a good state only a silent bus stops a step with a fault (60_exceptions.md R196): the fetch reads
inside the payload, the table is there past the gate, and a frame runs inside a scan only. -/

namespace Sys2Proof.Machine

variable {s : State}

/-- A read inside the payload of the scan answers (20_memory.md R41). -/
theorem ScanOk.memRead_isSome {sc : Scan} (h : ScanOk s sc) {a n : Nat} (hin : a + n ≤ sc.len) :
    (memRead s.inBuf sc.len a n).isSome = true := by
  rw [memRead, if_pos hin]
  exact Memory.readAll_isSome fun k _ hk => h.listed k (by omega)

theorem ScanOk.fetchFrame_ne_fault {sc : Scan} (h : ScanOk s sc) (r : Fault) : fetchFrame s sc ≠ .fault r := by
  intro hf
  obtain ⟨-, hlt, hheader | ⟨b, hfit, hframe⟩⟩ := fetchFrame_fault hf
  · obtain ⟨bs, hbs⟩ := Option.isSome_iff_exists.mp (h.memRead_isSome (a := sc.cursor) (n := 1) hlt)
    obtain ⟨b, rfl⟩ := List.length_eq_one_iff.mp (length_of_memRead hbs)
    exact hheader b hbs
  · have hread := h.memRead_isSome hfit
    rw [hframe] at hread
    cases hread

/-- An instruction run where it belongs, a frame inside a scan, faults on a silent bus only. -/
theorem exec_fault_of_inv {i : Instr} {r : Fault} (h : s.Inv) (hplace : i.isCommand = true ∨ s.scan ≠ none)
    (he : exec i s = .fault r) : r = .busNeverAnswers := by
  cases exec_fault he with
  | bus => rfl
  | calib hc hi =>
    have inited : s.inited = true := by
      obtain hi | hi := hi
      · exact hi
      · obtain ⟨sc, hs⟩ := Option.isSome_iff_exists.mp hi
        exact (h.scan sc hs).inited
    have hsome := h.calib inited
    rw [hc] at hsome
    cases hsome
  | outside hframe hs =>
    obtain hcommand | hscan := hplace
    · rw [hframe] at hcommand; cases hcommand
    · exact absurd hs hscan

theorem step_fault_of_inv {r : Fault} (h : s.Inv) (hstep : step s = .fault r) : r = .busNeverAnswers := by
  obtain ⟨sc, hs, hfetch | ⟨i, -, hexec⟩⟩ | ⟨-, q, rest, i, -, hdec, hexec⟩ := step_fault hstep
  · exact absurd hfetch ((h.scan sc hs).fetchFrame_ne_fault r)
  · exact exec_fault_of_inv h (.inr (by simp [hs])) hexec
  · exact exec_fault_of_inv (h.accept rest) (.inl (decodeRequest_isCommand hdec)) hexec

end Sys2Proof.Machine
end

section
/-! SUPPORT. What an instruction does to the interface (10_state.md R31, 20_memory.md R52, 30_encoding.md R60): the
parameters stay, the outputs grow at their end, the inputs are used from the front. -/

namespace Sys2Proof.Machine

variable {s t u : State} {n : Nat}

/-- `t` has the parameters of `s`, its outputs with at most `n` responses more, and what is left of its inputs. -/
structure OutputsGrow (n : Nat) (s t : State) : Prop where
  params : t.params = s.params
  trace : s.trace <+: t.trace
  responses : s.responses <+: t.responses
  responses_le : t.responses.length ≤ s.responses.length + n
  bus : t.bus <:+ s.bus
  requests : t.requests <:+ s.requests

/-- The parameters, outputs and inputs of a state. -/
def State.interface (s : State) : Params × List BusEvent × List Response × List BusAnswer × List Request :=
  (s.params, s.trace, s.responses, s.bus, s.requests)

theorem OutputsGrow.refl (n : Nat) (s : State) : OutputsGrow n s s :=
  ⟨rfl, List.prefix_rfl, List.prefix_rfl, Nat.le_add_right _ _, List.suffix_rfl, List.suffix_rfl⟩

/-- Writes to the block's fields, the scan and the buffers have no part in it. -/
theorem OutputsGrow.of_interface (h : OutputsGrow n s t) (e : u.interface = t.interface) : OutputsGrow n s u := by
  simp only [State.interface, Prod.mk.injEq] at e
  obtain ⟨hparams, htrace, hresponses, hbus, hrequests⟩ := e
  obtain ⟨params, trace, responses, responses_le, bus, requests⟩ := h
  exact ⟨hparams ▸ params, htrace ▸ trace, hresponses ▸ responses, hresponses ▸ responses_le, hbus ▸ bus,
    hrequests ▸ requests⟩

theorem OutputsGrow.issue (h : OutputsGrow n s t) {ev : BusEvent} {a : BusAnswer} {rest : List BusAnswer}
    (hb : t.bus = a :: rest) : OutputsGrow n s (t.issue ev rest) :=
  { h with
    trace := h.trace.trans (List.prefix_append _ _)
    bus := .trans (hb ▸ List.suffix_cons a rest) h.bus }

/-- A bus transaction whose answer may be a success or a failure. -/
theorem OutputsGrow.issue_either (h : OutputsGrow n s t) {ev : BusEvent} {a b : BusAnswer} {rest : List BusAnswer}
    (hb : t.bus = a :: rest ∨ t.bus = b :: rest) : OutputsGrow n s (t.issue ev rest) :=
  hb.elim h.issue h.issue

theorem OutputsGrow.waited (h : OutputsGrow n s t) : OutputsGrow n s t.waited :=
  { h with trace := h.trace.trans (List.prefix_append _ _) }

theorem OutputsGrow.accept (h : OutputsGrow n s t) {r : Request} {rest : List Request}
    (hq : t.requests = r :: rest) : OutputsGrow n s (t.accept rest) :=
  { h with requests := .trans (hq ▸ List.suffix_cons r rest) h.requests }

theorem OutputsGrow.respond (h : OutputsGrow n s t) (k : Byte) (r : Results) :
    OutputsGrow (n + 1) s (t.respond k r) :=
  { h with
    responses := h.responses.trans (List.prefix_append _ _)
    responses_le := by
      have := h.responses_le
      rw [State.respond_responses, List.length_append, List.length_singleton]
      omega }

theorem OutputsGrow.endScan (h : OutputsGrow n s t) (sc : Scan) : OutputsGrow (n + 1) s (t.endScan sc) :=
  (h.respond statusOk (.frameCount (BitVec.ofNat 16 sc.count))).of_interface rfl

theorem OutputsGrow.mono {m : Nat} (h : OutputsGrow n s t) (hle : n ≤ m) : OutputsGrow m s t :=
  { h with responses_le := by have := h.responses_le; omega }

theorem OutputsGrow.initialise (h : OutputsGrow n s t) (c : Calib) : OutputsGrow n s (t.initialise c) :=
  h.of_interface rfl

theorem InitEffect.outputsGrow (e : InitEffect s u) (h : OutputsGrow n t s) : OutputsGrow (n + 1) t u := by
  cases e with
  | notLinked => exact h.respond _ _
  | openFails _ h1 => exact (h.issue h1).respond _ _
  | identity _ h1 h2 _ h3 => exact (((h.issue h1).issue h2).issue_either h3).respond _ _
  | resetFails _ h1 h2 h3 h4 => exact ((((h.issue h1).issue h2).issue h3).issue_either h4).respond _ _
  | calibFails _ h1 h2 h3 h4 h5 =>
    exact ((((((h.issue h1).issue h2).issue h3).waited).issue h4).issue_either h5).respond _ _
  | success _ h1 h2 h3 h4 =>
    exact ((((((h.issue h1).issue h2).issue h3).waited).issue h4).initialise _).respond _ _

theorem CommandEffect.outputsGrow {i : Instr} (e : CommandEffect s i u) (h : OutputsGrow n t s) :
    OutputsGrow (n + 1) t u := by
  cases e with
  | init e => exact e.outputsGrow h
  | deinit hb => exact ((h.issue hb).respond _ _).of_interface rfl
  | deinitFails hb => exact (h.issue hb).respond _ _
  | gate => exact h.respond _ _
  | compTemp => exact (h.respond _ _).of_interface rfl
  | compTempFails => exact h.respond _ _
  | compPress => exact h.respond _ _
  | compPressFails => exact h.respond _ _
  | readTpFails _ hb => exact (h.issue hb).respond _ _
  | readTpPrecond _ hb => exact (h.issue hb).respond _ _
  | readTp _ hb => exact ((h.issue hb).respond _ _).of_interface rfl
  | fifoLengthFails _ h1 => exact (h.issue h1).respond _ _
  | fifoTooSmall _ h1 => exact (h.issue h1).respond _ _
  | fifoEmpty _ h1 => exact (h.issue h1).respond _ _
  | burstFails _ h1 _ _ _ h2 => exact (((h.issue h1).issue h2).respond _ _).of_interface rfl
  | burst _ h1 _ _ _ h2 => exact (((h.issue h1).issue h2).respond _ _).of_interface rfl
  | fifoParse => exact (h.mono (Nat.le_succ n)).of_interface rfl

theorem FrameEffect.outputsGrow {i : Instr} (e : FrameEffect s i t) : OutputsGrow 1 s t := by
  cases e with
  | full => exact (OutputsGrow.refl 0 s).endScan _
  | stop => exact (OutputsGrow.refl 0 s).endScan _
  | skip => exact (OutputsGrow.refl 1 s).of_interface rfl
  | time => exact (OutputsGrow.refl 1 s).of_interface rfl
  | press => exact (OutputsGrow.refl 1 s).of_interface rfl
  | temp => exact (OutputsGrow.refl 1 s).of_interface rfl
  | halfPair => exact ((OutputsGrow.refl 0 s).endScan _).of_interface rfl
  | pair => exact (OutputsGrow.refl 1 s).of_interface rfl

theorem step_outputsGrow (hstep : step s = .next t) : OutputsGrow 1 s t := by
  obtain ⟨-, ⟨sc, -, ⟨-, rfl⟩ | ⟨i, hnext, hexec⟩⟩ |
    ⟨-, ⟨-, rfl⟩ | ⟨r, rest, i, hr, hdec, hexec⟩⟩⟩ := step_next hstep
  · exact (OutputsGrow.refl 0 s).endScan sc
  · exact (exec_frame_next hnext.fits.1 hexec).outputsGrow
  · exact .refl 1 t
  · exact (exec_command_next (decodeRequest_isCommand hdec) hexec).outputsGrow ((OutputsGrow.refl 0 s).accept hr)

end Sys2Proof.Machine
end

section
/-! SUPPORT. Which instructions write the initialised bit (10_state.md R21) and the fine temperature (R25). -/

namespace Sys2Proof.Machine

variable {s t : State}

theorem FrameEffect.inited_eq {i : Instr} (e : FrameEffect s i t) : t.inited = s.inited := by
  cases e <;> rfl

theorem InitEffect.inited_cases (e : InitEffect s t) :
    t.inited = s.inited ∨ t.inited = true ∧ t.responses = s.responses ++ [⟨statusOk, .none⟩] := by
  cases e with
  | success => exact .inr ⟨rfl, by simp [calibRead, resetWritten, identified]⟩
  | _ => exact .inl (by simp [calibRead, resetWritten, identified])

theorem CommandEffect.inited_cases {i : Instr} (e : CommandEffect s i t) :
    t.inited = s.inited ∨
      (i = .init ∧ t.inited = true ∨ i = .deinit ∧ t.inited = false) ∧
        t.responses = s.responses ++ [⟨statusOk, .none⟩] := by
  cases e with
  | init e => exact e.inited_cases.imp_right fun ⟨bit, response⟩ => ⟨.inl ⟨rfl, bit⟩, response⟩
  | deinit => exact .inr ⟨.inr ⟨rfl, rfl⟩, rfl⟩
  | _ => exact .inl rfl

/-- The instructions that compensate a temperature. -/
def WritesTFine (i : Instr) : Prop :=
  (∃ raw, i = .compTemp raw) ∨ i = .readTp ∨ (∃ raw, i = .hdrTemp raw) ∨ ∃ rawT rawP, i = .hdrTempPress rawT rawP

theorem InitEffect.tFine_eq (e : InitEffect s t) : t.tFine = s.tFine := by
  cases e <;> simp [calibRead, resetWritten, identified]

theorem CommandEffect.tFine_cases {i : Instr} (e : CommandEffect s i t) : t.tFine = s.tFine ∨ WritesTFine i := by
  cases e with
  | init e => exact .inl e.tFine_eq
  | @compTemp raw => exact .inr (.inl ⟨raw, rfl⟩)
  | readTp => exact .inr (.inr (.inl rfl))
  | _ => exact .inl rfl

theorem FrameEffect.tFine_cases {i : Instr} (e : FrameEffect s i t) : t.tFine = s.tFine ∨ WritesTFine i := by
  cases e with
  | @temp raw => exact .inr (.inr (.inr (.inl ⟨raw, rfl⟩)))
  | @halfPair rawT rawP => exact .inr (.inr (.inr (.inr ⟨rawT, rawP, rfl⟩)))
  | @pair rawT rawP => exact .inr (.inr (.inr (.inr ⟨rawT, rawP, rfl⟩)))
  | _ => exact .inl rfl

theorem exec_next {i : Instr} (h : exec i s = .next t) : CommandEffect s i t ∨ FrameEffect s i t := by
  cases hi : i.isCommand
  · exact .inr (exec_frame_next hi h)
  · exact .inl (exec_command_next hi h)

end Sys2Proof.Machine
end

section
/-! The obligations of 10_state.md, settled. -/

namespace Sys2Proof.Machine

/-- Settles O13. -/
theorem resetValues : Obligations.ResetValues := ⟨rfl, rfl, rfl, rfl⟩

/-- Settles O14: nothing is listed at reset, and the fine temperature 0 is in its range. -/
theorem invariantAtReset : Obligations.InvariantAtReset where
  inBuf_wf := rfl
  outBuf_wf := rfl
  frames_wf := rfl
  calib := nofun
  tFine_ge := (by decide : -75495168 ≤ (0#64 : Word64).toInt)
  tFine_le := (by decide : (0#64 : Word64).toInt ≤ 75430907)
  frame_data := nofun
  scan := nofun

/-- Settles O15, by the cases of a step: each update keeps the invariant, and each other fault needs a state the
invariant excludes. -/
theorem stepKeepsInvariant : Obligations.StepKeepsInvariant :=
  fun _ h => ⟨fun _ => step_inv h, fun _ => step_fault_of_inv h⟩

/-- Settles O16, by the cases of a step. -/
theorem outputsOnlyGrow : Obligations.OutputsOnlyGrow := by
  intro s t hstep
  obtain ⟨params, trace, responses, responses_le, bus, requests⟩ := step_outputsGrow hstep
  exact ⟨params, trace, responses, responses_le, bus, requests⟩

/-- Settles O18: every case of an instruction but the successful INIT and DEINIT keeps the bit. -/
theorem onlyInitAndDeinitWriteInited : Obligations.OnlyInitAndDeinitWriteInited := by
  intro i s t hexec hne
  obtain e | e := exec_next hexec
  · exact e.inited_cases.resolve_left hne
  · exact absurd e.inited_eq hne

/-- Settles O19: every case of an instruction that compensates no temperature keeps the fine temperature. -/
theorem onlyTemperaturesWriteTFine : Obligations.OnlyTemperaturesWriteTFine := by
  intro i s t hexec hne
  obtain e | e := exec_next hexec
  · exact e.tFine_cases.resolve_left hne
  · exact e.tFine_cases.resolve_left hne

/-- Settles O37, from the exact polynomial and its extreme values. -/
theorem fineTemperatureRange : Obligations.FineTemperatureRange := by
  intro c raw
  obtain ⟨lower, upper⟩ := compTFine_range c raw
  exact ⟨lower, upper, compT100_range lower upper⟩

end Sys2Proof.Machine
end

section
/-! SUPPORT. What runs next when no scan is in progress, and which instructions reach the bus (20_memory.md R49,
R52). -/

namespace Sys2Proof.Machine

variable {s t : State} {i : Instr}

theorem fetch_of_no_scan (hd : s.params.headersDistinct = true) (hs : s.scan = none) : fetch s = fetchRequest s := by
  simp [fetch, hd, hs]

theorem fetchRequest_of_decodes {r : Request} {rest : List Request} (hr : s.requests = r :: rest)
    (hi : decodeRequest r.word r.payload = .ok i) : fetchRequest s = .run i (s.accept rest) := by
  simp [fetchRequest, hr, hi]

theorem step_of_fetch_run (h : fetch s = .run i t) : step s = exec i t := by
  simp [step, h]

/-- A frame changes none of the inputs to come and makes no transaction: it writes the scan, the frame array, the fine
temperature and the response alone. -/
theorem FrameEffect.requests_bus_trace_eq (e : FrameEffect s i t) :
    t.requests = s.requests ∧ t.bus = s.bus ∧ t.trace = s.trace := by
  cases e <;> exact ⟨rfl, rfl, rfl⟩

/-- The instructions that make bus transactions (20_memory.md R49). -/
def UsesBus (i : Instr) : Prop :=
  i = .init ∨ i = .deinit ∨ i = .readTp ∨ ∃ cap, i = .readFifo cap

theorem CommandEffect.bus_trace_cases (e : CommandEffect s i t) :
    (t.bus = s.bus ∧ t.trace = s.trace) ∨ UsesBus i := by
  cases e with
  | gate => exact .inl ⟨rfl, rfl⟩
  | compTemp => exact .inl ⟨rfl, rfl⟩
  | compTempFails => exact .inl ⟨rfl, rfl⟩
  | compPress => exact .inl ⟨rfl, rfl⟩
  | compPressFails => exact .inl ⟨rfl, rfl⟩
  | fifoParse => exact .inl ⟨rfl, rfl⟩
  | _ => exact .inr (by simp [UsesBus])

end Sys2Proof.Machine
end

section
/-! The obligations of 20_memory.md, settled. -/

namespace Sys2Proof.Machine

/-- Settles O12: a pass of a scan either ends it or executes a frame, and neither touches the queues or the bus. -/
theorem requestsWaitForTheScan : Obligations.RequestsWaitForTheScan := by
  intro s t sc hs hstep
  obtain ⟨-, ⟨sc', -, ⟨-, rfl⟩ | ⟨i, hnext, hexec⟩⟩ | ⟨hnone, -⟩⟩ := step_next hstep
  · exact ⟨rfl, rfl, rfl⟩
  · exact (exec_frame_next hnext.fits.1 hexec).requests_bus_trace_eq
  · cases hs.symm.trans hnone

/-- Settles O23: a frame makes no transaction, and among the host commands only the four excluded ones do. -/
theorem noBusTransactions : Obligations.NoBusTransactions := by
  intro i s t hinit hdeinit hreadTp hreadFifo hexec
  have hbus : ¬ UsesBus i := by simp [UsesBus, hinit, hdeinit, hreadTp, hreadFifo]
  obtain e | e := exec_next hexec
  · exact e.bus_trace_cases.resolve_right hbus
  · exact e.requests_bus_trace_eq.2

/-- Settles O8: with no scan the fetch looks at the queue, and finds the request that decodes. -/
theorem stepRunsTheRequest : Obligations.StepRunsTheRequest := by
  intro s r rest i hd hs hr hi
  exact step_of_fetch_run ((fetch_of_no_scan hd hs).trans (fetchRequest_of_decodes hr hi))

end Sys2Proof.Machine
end

section
/-! SUPPORT. The fields of a command word (30_encoding.md R61): a word is its opcode, bits 23:16 and bits 15:0, and
masks act on each of them. -/

namespace Sys2Proof

variable {w v : CommandWord}

theorem wordR_opcodeOf_rawOf (w : CommandWord) : wordR (opcodeOf w) (rawOf w) = w :=
  (BitVec.extractLsb'_append_extractLsb'_eq_extractLsb' rfl).trans BitVec.extractLsb'_eq_self

theorem rawOf_eq_append (w : CommandWord) : rawOf w = midOf w ++ capOf w :=
  (BitVec.extractLsb'_append_extractLsb'_eq_extractLsb' (x := w) (start₁ := 0) (len₁ := 16) (len₂ := 8) rfl).symm

theorem wordC_opcodeOf_capOf (h : midOf w = 0#8) : wordC (opcodeOf w) (capOf w) = w := by
  have hraw : (0#8 ++ capOf w : BitVec 24) = rawOf w := by rw [rawOf_eq_append, h]
  exact (congrArg (wordR (opcodeOf w)) hraw).trans (wordR_opcodeOf_rawOf w)

@[simp] theorem opcodeOf_wordR (op : Byte) (raw : Raw) : opcodeOf (wordR op raw) = op :=
  BitVec.extractLsb'_append_eq_left

@[simp] theorem rawOf_wordR (op : Byte) (raw : Raw) : rawOf (wordR op raw) = raw :=
  BitVec.extractLsb'_append_eq_right

@[simp] theorem opcodeOf_wordC (op : Byte) (cap : Word16) : opcodeOf (wordC op cap) = op :=
  Laws.EncodedShape.opcodeOf_wordC op cap

@[simp] theorem midOf_wordC (op : Byte) (cap : Word16) : midOf (wordC op cap) = 0#8 :=
  (BitVec.extractLsb'_append_eq_of_add_le (by decide)).trans BitVec.extractLsb'_append_eq_left

@[simp] theorem capOf_wordC (op : Byte) (cap : Word16) : capOf (wordC op cap) = cap :=
  (BitVec.extractLsb'_append_eq_of_add_le (by decide)).trans BitVec.extractLsb'_append_eq_right

theorem word_eq_iff_fields : w = v ↔ opcodeOf w = opcodeOf v ∧ midOf w = midOf v ∧ capOf w = capOf v := by
  refine ⟨by rintro rfl; exact ⟨rfl, rfl, rfl⟩, fun ⟨hop, hmid, hcap⟩ => ?_⟩
  rw [← wordR_opcodeOf_rawOf w, ← wordR_opcodeOf_rawOf v, rawOf_eq_append, rawOf_eq_append, hop, hmid, hcap]

theorem rawOf_eq_zero_iff : rawOf w = 0#24 ↔ midOf w = 0#8 ∧ capOf w = 0#16 := by
  constructor
  · intro h
    rw [← wordR_opcodeOf_rawOf w, h]
    exact ⟨midOf_wordC _ 0#16, capOf_wordC _ 0#16⟩
  · rintro ⟨hmid, hcap⟩
    rw [rawOf_eq_append, hmid, hcap]
    rfl

/-- A row (mask, match) of the opcode table compares the three fields on their own. -/
theorem and_eq_iff_fields {mask : CommandWord} :
    w &&& mask = v ↔ opcodeOf w &&& opcodeOf mask = opcodeOf v ∧ midOf w &&& midOf mask = midOf v ∧
      capOf w &&& capOf mask = capOf v := by
  simp only [word_eq_iff_fields, opcodeOf, midOf, capOf, BitVec.extractLsb'_and]

end Sys2Proof
end

section
/-! SUPPORT. Which words and payloads the request decoder accepts (30_encoding.md R62, R64), and that it is the inverse
of the encoder on them. -/

namespace Sys2Proof

variable {p : Params} {w : CommandWord} {payload : List Byte} {i j : Instr}

@[simp] theorem formZ_eq_ok : formZ w i = .ok j ↔ rawOf w = 0#24 ∧ i = j := by
  unfold formZ
  split <;> simp [*]

@[simp] theorem formC_eq_ok : formC w i = .ok j ↔ midOf w = 0#8 ∧ i = j := by
  unfold formC
  split <;> simp [*]

theorem decodeRequest_eq_ok :
    decodeRequest w payload = .ok i ↔ decodeWord w payload = .ok i ∧ checkPayload w payload = .ok () := by
  refine ⟨decodeRequest_ok, fun ⟨hw, hp⟩ => ?_⟩
  simp [decodeRequest, hw, hp]

theorem decodeWord_encode (h : encode p i = .request w payload) : decodeWord w payload = .ok i := by
  cases i <;> cases h
  case init => rfl
  case deinit => rfl
  case compTemp => simp [decodeWord]
  case compPress => simp [decodeWord]
  case readTp => rfl
  case readFifo => simp [decodeWord]
  case fifoParse => simp [decodeWord]

theorem checkPayload_encode (hwf : i.wf p = true) (h : encode p i = .request w payload) :
    checkPayload w payload = .ok () := by
  cases i <;> cases h
  case init => rfl
  case deinit => rfl
  case compTemp => simp [checkPayload]
  case compPress => simp [checkPayload]
  case readTp => rfl
  case readFifo => simp [checkPayload]
  case fifoParse => simpa [checkPayload, Instr.wf] using hwf

theorem encode_of_isCommand (h : i.isCommand = true) : ∃ w payload, encode p i = .request w payload := by
  cases i <;> cases h <;> exact ⟨_, _, rfl⟩

/-- The whole word is in the instruction it decodes to, and the payload for FIFO_PARSE. -/
theorem encode_of_decodeWord (p : Params) (h : decodeWord w payload = .ok i) :
    encode p i = .request w (if opcodeOf w = 0x21#8 then payload else []) := by
  have wordR_eq : ∀ op, opcodeOf w = op → wordR op (rawOf w) = w := by
    rintro _ rfl
    exact wordR_opcodeOf_rawOf w
  have wordC_eq : ∀ op, opcodeOf w = op → midOf w = 0#8 → wordC op (capOf w) = w := by
    rintro _ rfl
    exact wordC_opcodeOf_capOf
  unfold decodeWord at h
  split_ifs at h with hop hop hop hop hop hop hop
  · obtain ⟨hz, rfl⟩ := formZ_eq_ok.mp h; simp [encode, hop, ← hz, wordR_eq]
  · obtain ⟨hz, rfl⟩ := formZ_eq_ok.mp h; simp [encode, hop, ← hz, wordR_eq]
  · cases h; simp [encode, hop, wordR_eq]
  · cases h; simp [encode, hop, wordR_eq]
  · obtain ⟨hz, rfl⟩ := formZ_eq_ok.mp h; simp [encode, hop, ← hz, wordR_eq]
  · obtain ⟨hmid, rfl⟩ := formC_eq_ok.mp h; simp [encode, hop, hmid, wordC_eq]
  · obtain ⟨hmid, rfl⟩ := formC_eq_ok.mp h; simp [encode, hop, hmid, wordC_eq]

theorem checkPayload_eq_ok :
    checkPayload w payload = .ok () ↔
      if opcodeOf w = 0x21#8 then payload.length ≤ 65535 else payload = [] := by
  unfold checkPayload maxPayload
  split_ifs <;> simp [*]

theorem wf_of_decodeRequest (p : Params) (h : decodeRequest w payload = .ok i) : i.wf p = true := by
  have hcommand := decodeRequest_isCommand h
  cases i
  case fifoParse cap q => exact decide_eq_true (decodeRequest_payload_le h)
  all_goals cases hcommand <;> rfl

/-- The words of 30_encoding.md R61, R62: a format Z opcode with bits 23:0 zero, a format R opcode, a format C opcode
with bits 23:16 zero. -/
def AcceptedWord (w : CommandWord) : Prop :=
  (opcodeOf w ∈ [0x01#8, 0x02#8, 0x12#8] ∧ rawOf w = 0#24) ∨ opcodeOf w ∈ [0x10#8, 0x11#8] ∨
    (opcodeOf w ∈ [0x20#8, 0x21#8] ∧ midOf w = 0#8)

/-- Each opcode of the map gives its format's condition. -/
theorem exists_decodeWord_iff : (∃ i, decodeWord w payload = .ok i) ↔ AcceptedWord w := by
  unfold decodeWord AcceptedWord
  split_ifs <;> simp [*]

end Sys2Proof
end

section
/-! SUPPORT. The rows of the opcode table and the five refusals, in terms of the words accepted (30_encoding.md R64,
R65). -/

namespace Sys2Proof.Machine

variable {w : CommandWord} {payload : List Byte}

/-- Every mask of the table holds the whole opcode field. -/
theorem opcodeOf_of_row {r : CommandWord × CommandWord} (hr : r ∈ commandRows) (h : w &&& r.1 = r.2) :
    opcodeOf w = opcodeOf r.2 := by
  have whole : ∀ r ∈ commandRows, opcodeOf r.1 = 0xFF#8 := by simp [commandRows, opcodeOf]
  rw [← (and_eq_iff_fields.mp h).1, whole r hr]
  exact BitVec.and_allOnes.symm

/-- No two rows of the table have the same opcode (30_encoding.md R62). -/
theorem row_eq_of_opcodeOf_eq {r r' : CommandWord × CommandWord} (hr : r ∈ commandRows) (hr' : r' ∈ commandRows)
    (h : opcodeOf r.2 = opcodeOf r'.2) : r = r' := by
  have distinct : (commandRows.map fun r => opcodeOf r.2).Nodup := by decide
  exact List.inj_on_of_nodup_map distinct hr hr' h

theorem and_maskZ_eq_iff (op : Byte) :
    w &&& 0xFFFFFFFF#32 = wordC op 0#16 ↔ opcodeOf w = op ∧ rawOf w = 0#24 := by
  rw [rawOf_eq_zero_iff]
  have : w &&& 0xFFFFFFFF#32 = w := BitVec.and_allOnes
  simp [this, word_eq_iff_fields]

theorem and_maskR_eq_iff (op : Byte) : w &&& 0xFF000000#32 = wordC op 0#16 ↔ opcodeOf w = op := by
  have : opcodeOf w &&& opcodeOf 0xFF000000#32 = opcodeOf w := BitVec.and_allOnes
  have : midOf w &&& midOf 0xFF000000#32 = 0#8 := BitVec.and_zero
  have : capOf w &&& capOf 0xFF000000#32 = 0#16 := BitVec.and_zero
  simp [and_eq_iff_fields, *]

theorem and_maskC_eq_iff (op : Byte) :
    w &&& 0xFFFF0000#32 = wordC op 0#16 ↔ opcodeOf w = op ∧ midOf w = 0#8 := by
  have : opcodeOf w &&& opcodeOf 0xFFFF0000#32 = opcodeOf w := BitVec.and_allOnes
  have : midOf w &&& midOf 0xFFFF0000#32 = midOf w := BitVec.and_allOnes
  have : capOf w &&& capOf 0xFFFF0000#32 = 0#16 := BitVec.and_zero
  simp [and_eq_iff_fields, *]

theorem exists_row_iff : (∃ r ∈ commandRows, w &&& r.1 = r.2) ↔ AcceptedWord w := by
  have rows : commandRows =
      [(0xFFFFFFFF#32, wordC 0x01#8 0#16), (0xFFFFFFFF#32, wordC 0x02#8 0#16), (0xFF000000#32, wordC 0x10#8 0#16),
       (0xFF000000#32, wordC 0x11#8 0#16), (0xFFFFFFFF#32, wordC 0x12#8 0#16), (0xFFFF0000#32, wordC 0x20#8 0#16),
       (0xFFFF0000#32, wordC 0x21#8 0#16)] := rfl
  simp only [rows, List.mem_cons, List.not_mem_nil, or_false, exists_eq_or_imp, exists_eq_left, and_maskZ_eq_iff,
    and_maskR_eq_iff, and_maskC_eq_iff]
  simp only [AcceptedWord, List.mem_cons, List.not_mem_nil, or_false, or_and_right]
  exact iff_of_eq (by ac_rfl)

theorem exists_refusal_iff :
    (∃ e, decodeRequest w payload = .error e) ↔ ¬ ∃ i, decodeRequest w payload = .ok i := by
  cases decodeRequest w payload <;> simp

theorem exists_decodeRequest_iff :
    (∃ i, decodeRequest w payload = .ok i) ↔
      AcceptedWord w ∧ if opcodeOf w = 0x21#8 then payload.length ≤ 65535 else payload = [] := by
  simp only [decodeRequest_eq_ok, exists_and_right, exists_decodeWord_iff, checkPayload_eq_ok]

/-- Under each opcode of R62 the cases (b) to (e) are the negation of what is accepted; under any other, (a) is. -/
theorem badRequest_iff : BadRequest w payload ↔ ∃ e, decodeRequest w payload = .error e := by
  rw [exists_refusal_iff, exists_decodeRequest_iff]
  change (opcodeOf w ∉ opcodes ∨ (opcodeOf w ∈ [0x01#8, 0x02#8, 0x12#8] ∧ rawOf w ≠ 0#24) ∨
    (opcodeOf w ∈ [0x20#8, 0x21#8] ∧ midOf w ≠ 0#8) ∨ (payload ≠ [] ∧ opcodeOf w ≠ 0x21#8) ∨
    (opcodeOf w = 0x21#8 ∧ 65535 < payload.length)) ↔ _
  by_cases hop : opcodeOf w ∈ opcodes
  · simp only [opcodes, List.mem_cons, List.not_mem_nil, or_false] at hop
    rcases hop with hop | hop | hop | hop | hop | hop | hop <;>
      simp [opcodes, AcceptedWord, hop, imp_iff_not_or]
  · simp only [hop]
    simp only [opcodes, List.mem_cons, List.not_mem_nil, or_false, not_or] at hop
    simp [AcceptedWord, hop]

end Sys2Proof.Machine
end

section
/-! SUPPORT. Only the fetch refuses for the encoding: a host command that runs refuses at most a bus answer. -/

namespace Sys2Proof.Machine

variable {s : State}

/-- The outcome is no refusal of 30_encoding.md R64. -/
def NoEncodingRefusal (o : Result) : Prop := ∀ e, o ≠ .refused (.encoding e)

theorem noEncodingRefusal_complete (r : Results) (s : State) : NoEncodingRefusal (complete r s) := nofun

theorem noEncodingRefusal_raise (k : Byte) (s : State) : NoEncodingRefusal (raise k s) := nofun

theorem noEncodingRefusal_ite {c : Prop} [Decidable c] {a b : Result} (ha : NoEncodingRefusal a)
    (hb : NoEncodingRefusal b) : NoEncodingRefusal (if c then a else b) := by
  split
  · exact ha
  · exact hb

theorem noEncodingRefusal_gated {body : Result} (h : NoEncodingRefusal body) : NoEncodingRefusal (gated s body) :=
  noEncodingRefusal_ite h (noEncodingRefusal_raise _ s)

theorem noEncodingRefusal_withCalib {body : Calib → Result} (h : ∀ c, NoEncodingRefusal (body c)) :
    NoEncodingRefusal (withCalib s body) := by
  unfold withCalib
  split
  · nofun
  · exact h _

theorem noEncodingRefusal_transact {ev : BusEvent} {body : BusAnswer → State → Result}
    (h : ∀ a t, NoEncodingRefusal (body a t)) : NoEncodingRefusal (transact ev s body) := by
  unfold transact
  split
  · nofun
  · exact h _ _

theorem noEncodingRefusal_busDo {ev : BusEvent} {body : Bool → State → Result}
    (h : ∀ b t, NoEncodingRefusal (body b t)) : NoEncodingRefusal (busDo ev s body) :=
  noEncodingRefusal_transact fun
    | .ok, t => h true t
    | .ioError, t => h false t
    | .bytes _, _ => nofun

theorem noEncodingRefusal_busRead {reg : Byte} {n : Nat} {body : Option (List Byte) → State → Result}
    (h : ∀ r t, NoEncodingRefusal (body r t)) : NoEncodingRefusal (busRead reg n s body) :=
  noEncodingRefusal_transact fun
    | .ok, _ => nofun
    | .ioError, t => h none t
    | .bytes bs, t => noEncodingRefusal_ite (h (some bs) t) nofun

theorem noEncodingRefusal_closeAndRaise (k : Byte) : NoEncodingRefusal (closeAndRaise k s) :=
  noEncodingRefusal_busDo fun _ => noEncodingRefusal_raise k

theorem noEncodingRefusal_execInit : NoEncodingRefusal (execInit s) := by
  refine noEncodingRefusal_ite (noEncodingRefusal_busDo fun _ _ => ?_) (noEncodingRefusal_raise _ _)
  refine noEncodingRefusal_ite (noEncodingRefusal_busRead fun _ _ => ?_) (noEncodingRefusal_raise _ _)
  refine noEncodingRefusal_ite (noEncodingRefusal_busDo fun _ _ => ?_) (noEncodingRefusal_closeAndRaise _)
  refine noEncodingRefusal_ite (noEncodingRefusal_busRead fun c _ => ?_) (noEncodingRefusal_closeAndRaise _)
  cases c with
  | none => exact noEncodingRefusal_closeAndRaise _
  | some c => exact noEncodingRefusal_complete _ _

theorem noEncodingRefusal_execDeinit : NoEncodingRefusal (execDeinit s) := by
  refine noEncodingRefusal_busDo fun closed _ => ?_
  exact noEncodingRefusal_ite (noEncodingRefusal_complete _ _) (noEncodingRefusal_raise _ _)

theorem noEncodingRefusal_execReadTp : NoEncodingRefusal (execReadTp s) := by
  refine noEncodingRefusal_gated (noEncodingRefusal_busRead fun b _ => ?_)
  cases b with
  | none => exact noEncodingRefusal_raise _ _
  | some b =>
    exact noEncodingRefusal_withCalib fun _ =>
      noEncodingRefusal_ite (noEncodingRefusal_complete _ _) (noEncodingRefusal_raise _ _)

theorem noEncodingRefusal_burst (cap len : Word16) : NoEncodingRefusal (burst cap len s) := by
  refine noEncodingRefusal_ite (noEncodingRefusal_complete _ _) (noEncodingRefusal_busRead fun d _ => ?_)
  cases d with
  | none => exact noEncodingRefusal_raise _ _
  | some d => exact noEncodingRefusal_complete _ _

theorem noEncodingRefusal_execReadFifo (cap : Word16) : NoEncodingRefusal (execReadFifo cap s) := by
  refine noEncodingRefusal_gated (noEncodingRefusal_busRead fun l _ => ?_)
  cases l with
  | none => exact noEncodingRefusal_raise _ _
  | some l =>
    exact noEncodingRefusal_ite (noEncodingRefusal_raise _ _) (noEncodingRefusal_burst _ _)

theorem noEncodingRefusal_exec_command {i : Instr} (hi : i.isCommand = true) : NoEncodingRefusal (exec i s) := by
  cases i
  case init => exact noEncodingRefusal_execInit
  case deinit => exact noEncodingRefusal_execDeinit
  case compTemp raw =>
    exact noEncodingRefusal_gated <| noEncodingRefusal_withCalib fun _ =>
      noEncodingRefusal_ite (noEncodingRefusal_complete _ _) (noEncodingRefusal_raise _ _)
  case compPress raw =>
    exact noEncodingRefusal_gated <| noEncodingRefusal_withCalib fun _ =>
      noEncodingRefusal_ite (noEncodingRefusal_complete _ _) (noEncodingRefusal_raise _ _)
  case readTp => exact noEncodingRefusal_execReadTp
  case readFifo cap => exact noEncodingRefusal_execReadFifo cap
  case fifoParse cap payload => exact noEncodingRefusal_gated nofun
  all_goals cases hi

theorem step_refused_encoding_iff {r : Request} {rest : List Request} {e : DecodeError}
    (hd : s.params.headersDistinct = true) (hs : s.scan = none) (hr : s.requests = r :: rest) :
    step s = .refused (.encoding e) ↔ decodeRequest r.word r.payload = .error e := by
  cases hdec : decodeRequest r.word r.payload with
  | ok i =>
    have hstep : step s = exec i (s.accept rest) :=
      step_of_fetch_run ((fetch_of_no_scan hd hs).trans (fetchRequest_of_decodes hr hdec))
    have hne := noEncodingRefusal_exec_command (s := s.accept rest) (decodeRequest_isCommand hdec) e
    simp [hstep, hne]
  | error e' => simp [step, fetch_of_no_scan hd hs, fetchRequest, hr, hdec]

end Sys2Proof.Machine
end

section
/-! SUPPORT. The frame decoder and the encoder are inverses (30_encoding.md R68, R69, R71). -/

namespace Sys2Proof

variable {p : Params} {h : Byte} {bs rest : List Byte} {i : Instr}

theorem oneField_bytes24 (mk : Raw → Instr) (raw : Raw) (rest : List Byte) :
    oneField mk (bytes24 raw ++ rest) = .ok (mk raw) := by
  simp [bytes24, oneField, le24_byteOf]

theorem twoFields_bytes24 (mk : Raw → Raw → Instr) (rawT rawP : Raw) (rest : List Byte) :
    twoFields mk (bytes24 rawT ++ bytes24 rawP ++ rest) = .ok (mk rawT rawP) := by
  simp [bytes24, twoFields, le24_byteOf]

theorem bytes24_le24 (b0 b1 b2 : Byte) : bytes24 (le24 b0 b1 b2) = [b0, b1, b2] := by
  obtain ⟨h0, h1, h2⟩ := byteOf_le24 b0 b1 b2
  simp [bytes24, h0, h1, h2]

theorem oneField_inv {mk : Raw → Instr} (h : oneField mk bs = .ok i) :
    ∃ raw, i = mk raw ∧ bytes24 raw = bs.take 3 ∧ 3 ≤ bs.length := by
  unfold oneField at h
  split at h <;> cases h
  exact ⟨_, rfl, by simp [bytes24_le24]⟩

theorem twoFields_inv {mk : Raw → Raw → Instr} (h : twoFields mk bs = .ok i) :
    ∃ rawT rawP, i = mk rawT rawP ∧ bytes24 rawT ++ bytes24 rawP = bs.take 6 ∧ 6 ≤ bs.length := by
  unfold twoFields at h
  split at h <;> cases h
  exact ⟨_, _, rfl, by simp [bytes24_le24]⟩

/-- Each header differs from those the decoder compares before it (00_scope.md R8, 30_encoding.md R68). -/
theorem headers_ne_earlier (hd : p.headersDistinct = true) :
    p.hdrCfgErr ≠ p.hdrEmpty ∧
      (p.hdrTime ≠ p.hdrEmpty ∧ p.hdrTime ≠ p.hdrCfgErr) ∧
      (p.hdrPress ≠ p.hdrEmpty ∧ p.hdrPress ≠ p.hdrCfgErr ∧ p.hdrPress ≠ p.hdrTime) ∧
      (p.hdrTemp ≠ p.hdrEmpty ∧ p.hdrTemp ≠ p.hdrCfgErr ∧ p.hdrTemp ≠ p.hdrTime ∧ p.hdrTemp ≠ p.hdrPress) ∧
      (p.hdrTempPress ≠ p.hdrEmpty ∧ p.hdrTempPress ≠ p.hdrCfgErr ∧ p.hdrTempPress ≠ p.hdrTime ∧
        p.hdrTempPress ≠ p.hdrPress ∧ p.hdrTempPress ≠ p.hdrTemp) := by
  simp only [Params.headersDistinct, Params.headers, decide_eq_true_eq, List.nodup_cons, List.mem_cons, not_or] at hd
  grind

theorem namedHeader_eq_false :
    p.namedHeader h = false ↔
      h ≠ p.hdrEmpty ∧ h ≠ p.hdrCfgErr ∧ h ≠ p.hdrTime ∧ h ≠ p.hdrPress ∧ h ≠ p.hdrTemp ∧
        ¬(h = p.hdrTempPress ∧ p.combined = .split) := by
  simp [Params.namedHeader, and_assoc]

theorem decodeFrame_encode (hd : p.headersDistinct = true) (hwf : i.wf p = true) (henc : encode p i = .frame bs)
    (rest : List Byte) : decodeFrame p (bs ++ rest) = .ok i := by
  obtain ⟨cfgErr, time, press, temp, tempPress⟩ := headers_ne_earlier hd
  cases i <;> cases henc
  case hdrEmpty => simp [decodeFrame]
  case hdrCfgErr => simp [decodeFrame, cfgErr]
  case hdrTime => simp [decodeFrame, time, oneField_bytes24]
  case hdrPress => simp [decodeFrame, press, oneField_bytes24]
  case hdrTemp => simp [decodeFrame, temp, oneField_bytes24]
  case hdrTempPress =>
    have split : p.combined = .split := by simpa [Instr.wf] using hwf
    simpa [decodeFrame, tempPress, split] using twoFields_bytes24 _ _ _ rest
  case hdrOther =>
    have other := namedHeader_eq_false.mp (by simpa [Instr.wf] using hwf)
    simp [decodeFrame, other]

theorem encode_of_isFrame (hi : i.isCommand = false) : ∃ h payload, encode p i = .frame (h :: payload) := by
  cases i <;> cases hi <;> exact ⟨_, _, rfl⟩

theorem frameLength_of_oneField (stop : ¬(h = p.hdrEmpty ∨ h = p.hdrCfgErr))
    (one : h = p.hdrTime ∨ h = p.hdrPress ∨ h = p.hdrTemp) : frameLength p h = 4 :=
  (if_neg stop).trans (if_pos one)

theorem frameLength_of_twoFields (stop : ¬(h = p.hdrEmpty ∨ h = p.hdrCfgErr))
    (one : ¬(h = p.hdrTime ∨ h = p.hdrPress ∨ h = p.hdrTemp)) (two : h = p.hdrTempPress ∧ p.combined = .split) :
    frameLength p h = 7 :=
  (if_neg stop).trans ((if_neg one).trans (if_pos two))

/-- Decoder and length compare the header in the same order, so this needs no distinct headers. -/
theorem encode_of_decodeFrame (hdec : decodeFrame p (h :: bs) = .ok i) :
    encode p i = .frame ((h :: bs).take (frameLength p h)) ∧ frameLength p h ≤ (h :: bs).length ∧ i.wf p = true := by
  simp only [decodeFrame] at hdec
  split_ifs at hdec with empty cfgErr time press temp two
  · cases hdec; simp [encode, frameLength, Instr.wf, empty]
  · cases hdec; simp [encode, frameLength, Instr.wf, cfgErr]
  · obtain ⟨raw, rfl, hraw, hlen⟩ := oneField_inv hdec
    have length : frameLength p h = 4 := frameLength_of_oneField (by tauto) (.inl time)
    simp [encode, Instr.wf, length, ← time, hraw, hlen]
  · obtain ⟨raw, rfl, hraw, hlen⟩ := oneField_inv hdec
    have length : frameLength p h = 4 := frameLength_of_oneField (by tauto) (.inr (.inl press))
    simp [encode, Instr.wf, length, ← press, hraw, hlen]
  · obtain ⟨raw, rfl, hraw, hlen⟩ := oneField_inv hdec
    have length : frameLength p h = 4 := frameLength_of_oneField (by tauto) (.inr (.inr temp))
    simp [encode, Instr.wf, length, ← temp, hraw, hlen]
  · obtain ⟨rawT, rawP, rfl, hraw, hlen⟩ := twoFields_inv hdec
    have length : frameLength p h = 7 := frameLength_of_twoFields (by tauto) (by tauto) two
    simp [encode, Instr.wf, length, ← two.1, two.2, hraw, hlen]
  · cases hdec
    simp [encode, frameLength, Instr.wf, namedHeader_eq_false, *]

end Sys2Proof
end

section
/-! The obligations of 30_encoding.md, settled. -/

namespace Sys2Proof.Machine

/-- Settles O1: the fields of an encoded word give the instruction back, and a well-formed payload is allowed. -/
theorem commandsDecodeFromTheirEncoding : Obligations.CommandsDecodeFromTheirEncoding := by
  intro p i hi hwf
  obtain ⟨w, payload, henc⟩ := encode_of_isCommand (p := p) hi
  rw [henc]
  exact decodeRequest_eq_ok.mpr ⟨decodeWord_encode henc, checkPayload_encode hwf henc⟩

/-- Settles O2. The length comes from the converse, O4, on the encoding alone: it is a prefix of itself. -/
theorem framesDecodeFromTheirEncoding : Obligations.FramesDecodeFromTheirEncoding := by
  intro p i rest hd hi hwf
  obtain ⟨h, payload, henc⟩ := encode_of_isFrame (p := p) hi
  have hdec : decodeFrame p (h :: payload) = .ok i := by simpa using decodeFrame_encode hd hwf henc []
  obtain ⟨htake, hlen, -⟩ := encode_of_decodeFrame hdec
  have whole : h :: payload = (h :: payload).take (frameLength p h) := Encoded.frame.inj (henc.symm.trans htake)
  have hle : (h :: payload).length ≤ frameLength p h := List.take_eq_self_iff _ |>.mp whole.symm
  exact ⟨h, payload, henc, le_antisymm hle hlen, decodeFrame_encode hd hwf henc rest⟩

/-- Settles O3: the word is the encoding by its fields, and the payload check leaves no payload but FIFO_PARSE's. -/
theorem requestsEncodeBack : Obligations.RequestsEncodeBack := by
  intro p w payload i hdec
  obtain ⟨hw, hp⟩ := decodeRequest_ok hdec
  have hpayload : (if opcodeOf w = 0x21#8 then payload else []) = payload := by
    have allowed := checkPayload_eq_ok.mp hp
    split_ifs at allowed ⊢
    · rfl
    · exact allowed.symm
  exact ⟨hpayload ▸ encode_of_decodeWord p hw, wf_of_decodeRequest p hdec, decodeRequest_isCommand hdec⟩

/-- Settles O4, by the cases of the first byte. -/
theorem framesEncodeBack : Obligations.FramesEncodeBack := by
  intro p h bs i hdec
  obtain ⟨henc, hlen, hwf⟩ := encode_of_decodeFrame hdec
  exact ⟨henc, hlen, hwf, (decodeFrame_ok hdec).1⟩

/-- Settles O5: decoder and table accept the same words, and a row's opcode is that of the words it matches. -/
theorem commandTableDecides : Obligations.CommandTableDecides := by
  intro w payload
  refine ⟨exists_decodeWord_iff.trans exists_row_iff.symm, fun r hr r' hr' h h' => ?_⟩
  exact row_eq_of_opcodeOf_eq hr hr' ((opcodeOf_of_row hr h).symm.trans (opcodeOf_of_row hr' h'))

/-- Settles O6: the five cases are those the decoder refuses, and no command that runs refuses for its encoding. -/
theorem badRequestsAreRefused : Obligations.BadRequestsAreRefused := by
  intro s r rest hd hs hr
  simp only [step_refused_encoding_iff hd hs hr]
  exact badRequest_iff

/-- Settles O7: each of the eight encodings is a closed term. -/
theorem specWordsDecode : Obligations.SpecWordsDecode := by
  unfold Obligations.SpecWordsDecode
  decide

end Sys2Proof.Machine
end

section
/-! SUPPORT. INIT run forward: each case of `InitEffect` is what INIT answers, and the transactions of its three stages
as one list (40_init_calibration.md R100, R101). -/

namespace Sys2Proof.Machine

variable {s t : State} {r1 r2 r3 r4 : List BusAnswer}

theorem closeAndRaise_of_answer {rest : List BusAnswer} (h : s.bus = .ok :: rest ∨ s.bus = .ioError :: rest)
    (k : Byte) : closeAndRaise k s = .next ((s.issue .busClose rest).respond k .none) := by
  obtain h | h := h
  · exact busDo_of_ok h _
  · exact busDo_of_ioError h _

theorem identified_eq : identified s r1 r2 =
    { s with bus := r2, trace := s.trace ++ [.busOpen, .busRead s.params.chipIdReg 1] } := by
  simp [identified, State.issue]

theorem resetWritten_eq : resetWritten s r1 r2 r3 =
    { s with
      bus := r3
      trace := s.trace ++ [.busOpen, .busRead s.params.chipIdReg 1,
        .busWrite s.params.cmdReg [s.params.cmdSoftReset]] } := by
  simp [resetWritten, identified_eq, State.issue]

theorem calibRead_eq : calibRead s r1 r2 r3 r4 =
    { s with
      bus := r4
      trace := s.trace ++ [.busOpen, .busRead s.params.chipIdReg 1,
        .busWrite s.params.cmdReg [s.params.cmdSoftReset], .waitMs s.params.resetDelayMs,
        .busRead s.params.calibReg 21] } := by
  simp [calibRead, resetWritten_eq, State.issue, State.waited, calibLen]

/-- The converse of `exec_init_next`: on a bus with the answers of a case, INIT gives that case's next state. -/
theorem exec_init_of_effect (e : InitEffect s t) : exec .init s = .next t := by
  change execInit s = .next t
  unfold execInit
  cases e with
  | notLinked hl => rw [if_neg (by simp [hl]), raise]
  | openFails hl h1 => rw [if_pos hl, busDo_of_ioError h1, if_neg Bool.false_ne_true, raise]
  | @identity x r1 r2 r3 hl h1 h2 hx h3 =>
    rw [if_pos hl, busDo_of_ok h1, if_pos rfl]
    obtain rfl | ⟨b, hb, rfl⟩ := hx
    · rw [busRead_of_ioError (rest := r2) (by simpa using h2), if_neg (by simp)]
      exact closeAndRaise_of_answer h3 _
    · rw [busRead_of_bytes (rest := r2) (by simpa using h2) (by simp), if_neg (by simpa using hb)]
      exact closeAndRaise_of_answer h3 _
  | @resetFails r1 r2 r3 r4 hl h1 h2 h3 h4 =>
    rw [if_pos hl, busDo_of_ok h1, if_pos rfl, busRead_of_bytes (rest := r2) (by simpa using h2) (by simp),
      if_pos (by simp), busDo_of_ioError (rest := r3) (by simpa using h3)]
    exact closeAndRaise_of_answer h4 _
  | @calibFails r1 r2 r3 r4 r5 hl h1 h2 h3 h4 h5 =>
    rw [if_pos hl, busDo_of_ok h1, if_pos rfl, busRead_of_bytes (rest := r2) (by simpa using h2) (by simp),
      if_pos (by simp), busDo_of_ok (rest := r3) (by simpa using h3), if_pos rfl,
      busRead_of_ioError (rest := r4) (by simpa using h4)]
    exact closeAndRaise_of_answer h5 _
  | @success c r1 r2 r3 r4 hl h1 h2 h3 h4 hc =>
    rw [if_pos hl, busDo_of_ok h1, if_pos rfl, busRead_of_bytes (rest := r2) (by simpa using h2) (by simp),
      if_pos (by simp), busDo_of_ok (rest := r3) (by simpa using h3), if_pos rfl,
      busRead_of_bytes (n := calibLen) (rest := r4) (by simpa using h4) hc]
    rfl

end Sys2Proof.Machine
end

section
/-! SUPPORT. What INIT writes (40_init_calibration.md R103), and that nothing else writes the calibration table
(R108). -/

namespace Sys2Proof.Machine

variable {s t : State} {i : Instr}

theorem InitEffect.buffers_eq (e : InitEffect s t) :
    t.scan = s.scan ∧ t.inBuf = s.inBuf ∧ t.outBuf = s.outBuf ∧ t.frames = s.frames := by
  cases e <;> simp [identified_eq, resetWritten_eq, calibRead_eq]

theorem InitEffect.status_cases (e : InitEffect s t) :
    ∃ k, t.responses = s.responses ++ [⟨k, .none⟩] ∧
      ((k = statusOk ∧ t.inited = true ∧
          ∃ c : List Byte, c.length = calibLen ∧ .bytes c ∈ s.bus ∧ t.calib = some (unpack c)) ∨
        (k ≠ statusOk ∧ t.inited = s.inited ∧ t.calib = s.calib)) := by
  cases e with
  | notLinked => exact ⟨statusNotReady, by simp, .inr ⟨by decide, by simp⟩⟩
  | openFails => exact ⟨statusFailed, by simp, .inr ⟨by decide, by simp⟩⟩
  | identity => exact ⟨statusIdentity, by simp [identified_eq], .inr ⟨by decide, by simp [identified_eq]⟩⟩
  | resetFails => exact ⟨statusReset, by simp [resetWritten_eq], .inr ⟨by decide, by simp [resetWritten_eq]⟩⟩
  | calibFails => exact ⟨statusCalib, by simp [calibRead_eq], .inr ⟨by decide, by simp [calibRead_eq]⟩⟩
  | @success c r1 r2 r3 r4 hl h1 h2 h3 h4 hc =>
    have answered : .bytes c ∈ s.bus := by simp [h1, h2, h3, h4]
    exact ⟨statusOk, by simp [calibRead_eq], .inl ⟨rfl, by simp, c, hc, answered, by simp⟩⟩

theorem FrameEffect.calib_eq (e : FrameEffect s i t) : t.calib = s.calib := by
  cases e <;> rfl

theorem CommandEffect.calib_cases (e : CommandEffect s i t) : t.calib = s.calib ∨ i = .init ∧ InitEffect s t := by
  cases e with
  | init e => exact .inr ⟨rfl, e⟩
  | _ => exact .inl rfl

end Sys2Proof.Machine
end

section
/-! SUPPORT. `Pack` and `Unpack`, field by field (30_encoding.md R73, 40_init_calibration.md R104). -/

namespace Sys2Proof.Machine

theorem bytes16_half (c : List Byte) (k : Nat) : bytes16 (half c k) = [byteAt c k, byteAt c (k + 1)] := by
  simp [bytes16, half, le16_low, le16_high]

theorem map_byteAt_range (c : List Byte) : (List.range c.length).map (byteAt c) = c := by
  apply List.ext_getElem <;> simp +contextual [byteAt]

theorem pack_unpack_eq_map (c : List Byte) : pack (unpack c) = (List.range calibLen).map (byteAt c) := by
  simp only [pack, unpack, bytes16_half]
  rfl

theorem unpack_pack (t : Calib) : unpack (pack t) = t := by
  simp [unpack, pack, half, byteAt, bytes16, le16_bytes]

end Sys2Proof.Machine
end

section
/-! The obligations of 40_init_calibration.md, settled. -/

namespace Sys2Proof.Machine

/-- Settles O25: a bus that answers every transaction well is the last case of INIT. -/
theorem initLoadsCalibration : Obligations.InitLoadsCalibration := by
  intro s c rest hl hc hb
  rw [exec_init_of_effect (.success hl hb rfl rfl rfl hc), calibRead_eq]
  rfl

/-- Settles O29, by the answer of the close. -/
theorem deinitEffect : Obligations.DeinitEffect := by
  intro s rest
  constructor <;> intro hb <;> simp only [exec, execDeinit]
  · rw [busDo_of_ok hb]; rfl
  · rw [busDo_of_ioError hb]; rfl

/-- Settles O17: a frame keeps the table, the one command that may not is INIT, and a failed INIT keeps it too. -/
theorem onlyInitWritesCalibration : Obligations.OnlyInitWritesCalibration := by
  intro i s t hexec hne
  obtain e | e := exec_next hexec
  · obtain ⟨rfl, init⟩ := e.calib_cases.resolve_left hne
    obtain ⟨k, response, ⟨rfl, bit, -⟩ | ⟨-, -, table⟩⟩ := init.status_cases
    · exact ⟨rfl, bit, response⟩
    · exact absurd table hne
  · exact absurd e.calib_eq hne

/-- Settles O26: each row of the table is one case of INIT, with the bus answers it needs. -/
theorem initStatusOrder : Obligations.InitStatusOrder := by
  intro s rest a ha
  have close : a :: rest = .ok :: rest ∨ a :: rest = .ioError :: rest := by simpa using ha
  refine ⟨fun hl => ?notLinked, fun hl hb => ?openFails, fun x hx hl hb => ?identity, fun hl hb => ?resetFails,
    fun hl hb => ?calibFails, fun c hc hl hb => ?success⟩
  case notLinked => exact exec_init_of_effect (.notLinked hl)
  case openFails => exact exec_init_of_effect (.openFails hl hb)
  case identity =>
    rw [exec_init_of_effect (.identity hl hb rfl hx close), identified_eq]
    simp [State.issue, State.respond, statusIdentity]
  case resetFails =>
    rw [exec_init_of_effect (.resetFails hl hb rfl rfl close), resetWritten_eq]
    simp [State.issue, State.respond, statusReset]
  case calibFails =>
    rw [exec_init_of_effect (.calibFails hl hb rfl rfl rfl close), calibRead_eq]
    simp [State.issue, State.respond, statusCalib]
  case success => exact ⟨_, exec_init_of_effect (.success hl hb rfl rfl rfl hc), rfl⟩

/-- Settles O27, by the cases of INIT. -/
theorem initEffect : Obligations.InitEffect := by
  intro s t hexec
  have e := exec_init_next hexec
  obtain ⟨scan, inBuf, outBuf, frames⟩ := e.buffers_eq
  exact ⟨e.tFine_eq, scan, inBuf, outBuf, frames, e.status_cases⟩

/-- Settles O28: both compositions rebuild their argument field by field. -/
theorem unpackPackRoundTrip : Obligations.UnpackPackRoundTrip := by
  refine ⟨fun c hc => ?_, fun t => ⟨unpack_pack t, rfl⟩⟩
  calc pack (unpack c) = (List.range calibLen).map (byteAt c) := pack_unpack_eq_map c
    _ = (List.range c.length).map (byteAt c) := by rw [hc, calibLen]
    _ = c := map_byteAt_range c

end Sys2Proof.Machine
end

section
/-! SUPPORT. COMP_TEMP, COMP_PRESS and READ_TP run forward: each case of `CommandEffect` is what they answer
(41_compensation.md R124, R127, R130). -/

namespace Sys2Proof.Machine

variable {s t : State} {raw : Raw}

theorem compPrecond_eq_true_iff {p : Params} {k : CompKind} {c : Calib} :
    compPrecond p k c raw = true ↔ ⟨k, c, raw⟩ ∉ p.precondFails :=
  decide_eq_true_iff

theorem compPrecond_eq_false_iff {p : Params} {k : CompKind} {c : Calib} :
    compPrecond p k c raw = false ↔ ⟨k, c, raw⟩ ∈ p.precondFails := by
  simp [compPrecond]

/-- The converse of `exec_compTemp_next`. -/
theorem exec_compTemp_of_effect (e : CommandEffect s (.compTemp raw) t) : exec (.compTemp raw) s = .next t := by
  change execCompTemp raw s = .next t
  unfold execCompTemp
  cases e with
  | gate _ hi => exact gated_of_not_inited hi _
  | compTemp hi hc hp => rw [gated_of_inited hi, withCalib_of_some hc, if_pos hp, complete]
  | compTempFails hi hc hp =>
    rw [gated_of_inited hi, withCalib_of_some hc, if_neg (Bool.not_eq_true _ ▸ hp), raise]

/-- The converse of `exec_compPress_next`. -/
theorem exec_compPress_of_effect (e : CommandEffect s (.compPress raw) t) :
    exec (.compPress raw) s = .next t := by
  change execCompPress raw s = .next t
  unfold execCompPress
  cases e with
  | gate _ hi => exact gated_of_not_inited hi _
  | compPress hi hc hp => rw [gated_of_inited hi, withCalib_of_some hc, if_pos hp, complete]
  | compPressFails hi hc hp =>
    rw [gated_of_inited hi, withCalib_of_some hc, if_neg (Bool.not_eq_true _ ▸ hp), raise]

theorem compensateBoth_of_precond {c : Calib} {rawT rawP : Raw} (hc : s.calib = some c)
    (hp : (compPrecond s.params .temp c rawT && compPrecond s.params .press c rawP) = true) :
    compensateBoth rawT rawP s = .next ((s.setTFine (compT c rawT).1).respond statusOk
      (bothResults rawT rawP (compT c rawT).2 (compPNow (s.setTFine (compT c rawT).1) c rawP))) := by
  rw [compensateBoth, withCalib_of_some hc, if_pos hp, complete]

theorem compensateBoth_of_not_precond {c : Calib} {rawT rawP : Raw} (hc : s.calib = some c)
    (hp : (compPrecond s.params .temp c rawT && compPrecond s.params .press c rawP) = false) :
    compensateBoth rawT rawP s = .next (s.respond statusFailed .none) := by
  rw [compensateBoth, withCalib_of_some hc, if_neg (Bool.not_eq_true _ ▸ hp), raise]

/-- The converse of `exec_readTp_next`. -/
theorem exec_readTp_of_effect (e : CommandEffect s .readTp t) : exec .readTp s = .next t := by
  change execReadTp s = .next t
  unfold execReadTp
  cases e with
  | gate _ hi => exact gated_of_not_inited hi _
  | readTpFails hi hb => rw [gated_of_inited hi, busRead_of_ioError hb]; rfl
  | @readTpPrecond rest b c hi hb hn hc hp =>
    rw [gated_of_inited hi, busRead_of_bytes hb hn]
    exact compensateBoth_of_not_precond (s := dataRead s rest) hc hp
  | @readTp rest b c hi hb hn hc hp =>
    rw [gated_of_inited hi, busRead_of_bytes hb hn]
    exact compensateBoth_of_precond (s := dataRead s rest) hc hp

/-- The fine temperature just written reads back as the one of the same bytes: it fits in 64 bits (10_state.md
R26). -/
theorem compPNow_setTFine (s : State) (c : Calib) (rawT rawP : Raw) :
    compPNow (s.setTFine (compT c rawT).1) c rawP = compP s.params.pd5Form c (compT c rawT).1 rawP := by
  obtain ⟨lower, upper⟩ := compTFine_range c rawT
  have written : (s.setTFine (compT c rawT).1).tFine.toInt = (compT c rawT).1 :=
    toInt_ofInt64_of_range (v := compTFine c rawT) (by omega) (by omega)
  rw [compPNow, written, State.setTFine_params]

end Sys2Proof.Machine
end

section
/-! SUPPORT. `CompP` over the integers: what each of its terms is with the wraps between two divisions merged into one,
and its last line without the wraps before it (41_compensation.md R122, R133). -/

namespace Sys2Proof.Machine

theorem wrap64_eq_emod (v : Int) : wrap64 v = (v + 2 ^ 63) % 2 ^ 64 - 2 ^ 63 := by
  rw [wrap64, Int.bmod_def]
  split <;> omega

theorem wrap64_modEq (v : Int) : wrap64 v ≡ v [ZMOD 2 ^ 64] :=
  Int.bmod_emod

theorem cast_u64 (v : Int) : (u64 v : Int) = v % 2 ^ 64 :=
  Int.toNat_of_nonneg (Int.emod_nonneg v (by decide))

theorem u64_lt (v : Int) : u64 v < 2 ^ 64 := by
  have lt : v % 2 ^ 64 < 2 ^ 64 := Int.emod_lt_of_pos v (by decide)
  have := cast_u64 v
  omega

theorem compPCube_eq (tf : Int) : compPCube tf = (wrap64 ((wrap64 (tf ^ 2)).tdiv 64 * tf)).tdiv 256 := by
  simp only [compPCube, mulW, tdivZ, sq]

theorem compPOffset_eq (t : Calib) (tf : Int) :
    compPOffset t tf = wrap64 (p5Z t * 2 ^ 47 + (wrap64 (p8Z t * compPCube tf)).tdiv 32 + p7Z t * tf ^ 2 * 16
      + p6Z t * tf * 2 ^ 22) := by
  simp [compPOffset, addW, mulW, tdivZ, sq]

theorem compPSens_eq (t : Calib) (tf : Int) :
    compPSens t tf = wrap64 ((p1Z t - 16384) * 2 ^ 46 + (wrap64 (p4Z t * compPCube tf)).tdiv 32
      + p3Z t * tf ^ 2 * 4 + (p2Z t - 16384) * tf * 2 ^ 21) := by
  simp [compPSens, addW, mulW, tdivZ, sq]

/-- `c4` of `CompP` (41_compensation.md R122) over the integers, wrapped before its division. -/
def compPC4 (t : Calib) (tf raw : Int) : Int :=
  (wrap64 ((p10Z t * tf + 65536 * p9Z t) * raw)).tdiv 8192

/-- `c5` of `CompP` (41_compensation.md R122) over the integers, wrapped before its division. -/
def compPC5Int (form : Pd5Form) (c4 raw : Int) : Int :=
  match form with
  | .direct => (wrap64 (c4 * raw)).tdiv 512
  | .div10 => (wrap64 (raw * c4.tdiv 10)).tdiv 512 * 10

/-- `e3` of `CompP` (41_compensation.md R122) over the integers, wrapped before each division. -/
def compPE3 (t : Calib) (raw : Int) : Int :=
  (wrap64 ((wrap64 (p11Z t * raw ^ 2)).tdiv 65536 * raw)).tdiv 128

/-- Only the form `div10` has a product after its last division, which the sum may take unwrapped. -/
theorem wrap64_add_compPC5 (form : Pd5Form) (a c4 raw : Int) :
    wrap64 (a + compPC5 form c4 raw) = wrap64 (a + compPC5Int form c4 raw) := by
  cases form with
  | direct => rfl
  | div10 => exact wrap64_add_wrap64 a _

theorem compPSum_eq (form : Pd5Form) (t : Calib) (tf raw : Int) :
    compPSum form t tf raw = wrap64 ((compPOffset t tf).tdiv 4 + (compPSens t tf).tdiv (2 ^ 24) * raw
      + compPC5Int form (compPC4 t tf raw) raw + compPE3 t raw) := by
  rw [← wrap64_wrap64_add, ← wrap64_add_compPC5]
  simp [compPSum, compPC4, compPE3, addW, mulW, tdivZ, sq]

/-- The unsigned last line needs the sum modulo `2^64` only. -/
theorem cast_compP (form : Pd5Form) (t : Calib) (tf : Int) (raw : Raw) :
    (compP form t tf raw : Int) = 25 * compPSum form t tf raw.toNat % 2 ^ 64 / 2 ^ 40 := by
  rw [compP, udivN, Int.natCast_ediv, cast_u64, cast_u64, mul_comm, ((Int.mod_modEq _ _).mul_left 25).eq]
  norm_cast

end Sys2Proof.Machine
end

section
/-! SUPPORT. The conversions of 41_compensation.md R123: each rounding keeps a magnitude between the powers of two it
lies between, so the last one leaves a significand and an exponent that binary32 holds as a normal value. -/

namespace Sys2Proof.Machine

/-- The magnitude of a `Flt`. -/
def Flt.magnitude (x : Flt) : ℚ := x.man * 2 ^ x.exp

theorem fltValue_eq (x : Flt) : fltValue x = (if x.neg then -1 else 1) * x.magnitude :=
  mul_assoc _ _ _

/-- `div64` and `f32` round the magnitude over the divisor. -/
theorem scaleUp_ratio_eq_magnitude (x : Flt) (n : Nat) :
    (scaleUp x.man x.exp : ℚ) / scaleUp n (-x.exp) = x.magnitude / n := by
  have ratio := scaleUp_ratio x.man n (-x.exp)
  rw [neg_neg] at ratio
  rw [ratio, Flt.magnitude, zpow_neg, div_inv_eq_mul, mul_div_right_comm]

/-- The exponent `roundRatio` chooses, where the ratio lies between two powers of two. -/
theorem roundRatio_exp_range {prec num den : Nat} {a b : Int} (neg : Bool) (hnum : 0 < num) (hden : 0 < den)
    (lower : (2 : ℚ) ^ a ≤ num / den) (upper : (num : ℚ) / den < 2 ^ b) :
    let x := roundRatio prec neg num den
    a ≤ x.exp + (prec - 1) ∧ x.exp + (prec - 1) < b := by
  intro x
  obtain ⟨log_le, lt_log⟩ := log2Ratio_spec hnum hden
  have a_lt : a < log2Ratio num den + 1 := (zpow_lt_zpow_iff_right₀ one_lt_two).1 (lower.trans_lt lt_log)
  have lt_b : log2Ratio num den < b := (zpow_lt_zpow_iff_right₀ one_lt_two).1 (log_le.trans_lt upper)
  have hexp : x.exp = log2Ratio num den - (prec - 1) := by simp only [x, roundRatio_of_pos prec neg den hnum]
  omega

/-- Rounding does not cross a power of two. -/
theorem roundRatio_magnitude_range {prec num den : Nat} {a b : Int} (neg : Bool) (hprec : 0 < prec)
    (hnum : 0 < num) (hden : 0 < den) (lower : (2 : ℚ) ^ a ≤ num / den) (upper : (num : ℚ) / den < 2 ^ b) :
    2 ^ a ≤ (roundRatio prec neg num den).magnitude ∧ (roundRatio prec neg num den).magnitude ≤ 2 ^ b := by
  obtain ⟨man_ge, man_le⟩ := roundRatio_man_range neg hprec hnum hden
  obtain ⟨exp_ge, exp_lt⟩ := roundRatio_exp_range (prec := prec) neg hnum hden lower upper
  set x := roundRatio prec neg num den
  have hx : (0 : ℚ) < 2 ^ x.exp := zpow_pos two_pos _
  have man_ge' : (2 : ℚ) ^ (prec - 1) ≤ x.man := mod_cast man_ge
  have man_le' : (x.man : ℚ) ≤ 2 ^ prec := mod_cast man_le
  constructor
  · calc (2 : ℚ) ^ a ≤ 2 ^ (((prec - 1 : Nat) : Int) + x.exp) := zpow_le_zpow_right₀ one_le_two (by omega)
      _ = 2 ^ (prec - 1) * 2 ^ x.exp := by rw [zpow_add₀ two_ne_zero, zpow_natCast]
      _ ≤ x.magnitude := mul_le_mul_of_nonneg_right man_ge' hx.le
  · calc x.magnitude ≤ 2 ^ prec * 2 ^ x.exp := mul_le_mul_of_nonneg_right man_le' hx.le
      _ = 2 ^ ((prec : Int) + x.exp) := by rw [zpow_add₀ two_ne_zero, zpow_natCast]
      _ ≤ 2 ^ b := zpow_le_zpow_right₀ one_le_two (by omega)

theorem Flt.man_pos_of_magnitude {x : Flt} {a : Int} (h : 2 ^ a ≤ x.magnitude) : 0 < x.man := by
  refine Nat.pos_of_ne_zero fun hz => ?_
  have : (0 : ℚ) < 2 ^ a := zpow_pos two_pos a
  rw [Flt.magnitude, hz, Nat.cast_zero, zero_mul] at h
  exact absurd h (not_le.2 this)

theorem f64_magnitude_range {v : Int} (hv : v ≠ 0) (hlt : |v| < 2 ^ 64) :
    2 ^ (0 : Int) ≤ (f64 v).magnitude ∧ (f64 v).magnitude ≤ 2 ^ (64 : Int) := by
  have pos : 0 < v.natAbs := Int.natAbs_pos.2 hv
  have lt : v.natAbs < 2 ^ 64 := by rw [Int.abs_eq_natAbs] at hlt; exact_mod_cast hlt
  refine roundRatio_magnitude_range _ (by decide) pos one_pos ?_ ?_ <;> rw [Nat.cast_one, div_one]
  · exact_mod_cast pos
  · exact_mod_cast lt

/-- A division by 100 costs at most seven powers of two and gains at least six. -/
theorem div64_hundred_magnitude_range {x : Flt} (lower : 2 ^ (0 : Int) ≤ x.magnitude)
    (upper : x.magnitude ≤ 2 ^ (64 : Int)) :
    2 ^ (-7 : Int) ≤ (div64 x 100).magnitude ∧ (div64 x 100).magnitude ≤ 2 ^ (58 : Int) := by
  refine roundRatio_magnitude_range _ (by decide) (scaleUp_pos (Flt.man_pos_of_magnitude lower) _)
    (scaleUp_pos (by decide) _) ?_ ?_ <;> rw [scaleUp_ratio_eq_magnitude]
  · norm_num at lower ⊢
    linarith
  · norm_num at upper ⊢
    linarith

/-- Between `2^-7` and `2^58` a magnitude is far inside the normal range of binary32. -/
theorem f32_fields_range {x : Flt} (lower : 2 ^ (-7 : Int) ≤ x.magnitude) (upper : x.magnitude ≤ 2 ^ (58 : Int)) :
    (2 ^ 23 ≤ (f32 x).man ∧ (f32 x).man ≤ 2 ^ 24) ∧ -30 ≤ (f32 x).exp ∧ (f32 x).exp < 36 := by
  have hnum : 0 < scaleUp x.man x.exp := scaleUp_pos (Flt.man_pos_of_magnitude lower) _
  have hden : 0 < scaleUp 1 (-x.exp) := scaleUp_pos one_pos _
  have ratio : (scaleUp x.man x.exp : ℚ) / scaleUp 1 (-x.exp) = x.magnitude := by
    rw [scaleUp_ratio_eq_magnitude, Nat.cast_one, div_one]
  obtain ⟨exp_ge, exp_lt⟩ := roundRatio_exp_range (prec := 24) (a := -7) (b := 59) x.neg hnum hden
    (ratio ▸ lower) (ratio ▸ upper.trans_lt (by norm_num))
  have hexp : (f32 x).exp = (roundRatio 24 x.neg (scaleUp x.man x.exp) (scaleUp 1 (-x.exp))).exp := rfl
  exact ⟨roundRatio_man_range (prec := 24) x.neg (by decide) hnum hden, by omega, by omega⟩

end Sys2Proof.Machine
end

section
/-! SUPPORT. The binary32 pattern of a normal value, read back (00_scope.md R15). -/

namespace Sys2Proof.Machine

/-- The pattern with a sign, an exponent field and a fraction. -/
def f32Pattern (neg : Bool) (field frac : Nat) : F32 :=
  BitVec.ofNat 32 ((if neg then 2 ^ 31 else 0) + field * 2 ^ 23 + frac)

section
variable {neg : Bool} {field frac : Nat} (hfield : field < 2 ^ 8) (hfrac : frac < 2 ^ 23)
include hfield hfrac

theorem toNat_f32Pattern :
    (f32Pattern neg field frac).toNat = (if neg then 2 ^ 31 else 0) + field * 2 ^ 23 + frac := by
  rw [f32Pattern, BitVec.toNat_ofNat]
  refine Nat.mod_eq_of_lt ?_
  split <;> omega

theorem f32Pattern_sign : (f32Pattern neg field frac).getLsbD 31 = neg := by
  rw [BitVec.getLsbD, Nat.testBit_eq_decide_div_mod_eq, toNat_f32Pattern hfield hfrac]
  cases neg <;> simp <;> omega

theorem f32Pattern_field : ((f32Pattern neg field frac).extractLsb' 23 8).toNat = field := by
  rw [BitVec.extractLsb'_toNat, Nat.shiftRight_eq_div_pow, toNat_f32Pattern hfield hfrac]
  split <;> omega

theorem f32Pattern_frac : ((f32Pattern neg field frac).extractLsb' 0 23).toNat = frac := by
  rw [BitVec.extractLsb'_toNat, Nat.shiftRight_eq_div_pow, toNat_f32Pattern hfield hfrac]
  split <;> omega

theorem f32Value_f32Pattern :
    f32Value (f32Pattern neg field frac) =
      fltValue ⟨neg, 2 ^ 23 + frac, field - 150⟩ := by
  simp only [f32Value, fltValue, f32Pattern_sign hfield hfrac, f32Pattern_field hfield hfrac,
    f32Pattern_frac hfield hfrac]

end

theorem packF32_of_man_ge {x : Flt} (h : 2 ^ 23 ≤ x.man) :
    packF32 x = f32Pattern x.neg (x.exp + 150).toNat (x.man - 2 ^ 23) :=
  if_neg (by omega)

/-- The rounding may reach `2^24`: the carry into the exponent field is the next binade. -/
theorem packF32_of_carry {x : Flt} (h : x.man = 2 ^ 24) :
    packF32 x = f32Pattern x.neg ((x.exp + 150).toNat + 1) 0 := by
  rw [packF32_of_man_ge (by omega), h]
  exact congrArg (BitVec.ofNat 32) (by omega)

theorem packF32_normal {x : Flt} (man_ge : 2 ^ 23 ≤ x.man) (man_le : x.man ≤ 2 ^ 24) (exp_ge : -149 ≤ x.exp)
    (exp_lt : x.exp < 104) :
    0 < ((packF32 x).extractLsb' 23 8).toNat ∧ ((packF32 x).extractLsb' 23 8).toNat < 255 ∧
      f32Value (packF32 x) = fltValue x := by
  have cast_field : ((x.exp + 150).toNat : Int) = x.exp + 150 := Int.toNat_of_nonneg (by omega)
  obtain man_lt | carry := man_le.lt_or_eq
  · have hfield : (x.exp + 150).toNat < 2 ^ 8 := by omega
    have hfrac : x.man - 2 ^ 23 < 2 ^ 23 := by omega
    rw [packF32_of_man_ge man_ge, f32Pattern_field hfield hfrac, f32Value_f32Pattern hfield hfrac,
      cast_field, Nat.add_sub_cancel' man_ge, add_sub_cancel_right]
    exact ⟨by omega, by omega, rfl⟩
  · have hfield : (x.exp + 150).toNat + 1 < 2 ^ 8 := by omega
    have hfrac : 0 < 2 ^ 23 := by decide
    have next_binade : (2 : ℚ) ^ (x.exp + 1) = 2 ^ x.exp * 2 := zpow_add_one₀ two_ne_zero _
    have value : fltValue ⟨x.neg, 2 ^ 23, x.exp + 1⟩ = fltValue x := by
      simp only [fltValue, carry, next_binade]
      push_cast
      ring
    rw [packF32_of_carry carry, f32Pattern_field hfield hfrac, f32Value_f32Pattern hfield hfrac, Nat.cast_succ,
      cast_field, add_zero, show x.exp + 150 + 1 - 150 = x.exp + 1 by omega]
    exact ⟨by omega, by omega, value⟩

end Sys2Proof.Machine
end

section
/-! The obligations of 41_compensation.md, settled. -/

namespace Sys2Proof.Machine

/-- Settles O58: each term of the formula is one of `CompP`'s, and the last line needs the sum modulo `2^64` only. -/
theorem compPIsItsFormula : Obligations.CompPIsItsFormula := by
  intro form c tf raw w r a3 a4 off b2 sens c4 c5 e3 sum
  have hw : w = wrap64 := funext fun v => (wrap64_eq_emod v).symm
  have ha3 : a3 = compPCube tf := by rw [compPCube_eq, ← hw]
  have hoff : off = compPOffset c tf := by rw [compPOffset_eq, ← ha3, ← hw]; rfl
  have hsens : sens = compPSens c tf := by rw [compPSens_eq, ← ha3, ← hw]; rfl
  have hc4 : c4 = compPC4 c tf r := by rw [compPC4, ← hw]; rfl
  have hc5 : c5 = compPC5Int form c4 r := by cases form <;> simp only [c5, compPC5Int, hw]
  have he3 : e3 = compPE3 c r := by rw [compPE3, ← hw]; rfl
  have hsum : compPSum form c tf r = wrap64 sum := by
    rw [compPSum_eq, ← hoff, ← hsens, ← hc4, ← hc5, ← he3]
  rw [cast_compP, hsum, ((wrap64_modEq sum).mul_left 25).eq]

/-- Settles O41, by the ranges of the magnitude after each of the three roundings. -/
theorem conversionsAreNormal : Obligations.ConversionsAreNormal := by
  refine ⟨by decide, fun v hv hlt => ?_⟩
  obtain ⟨lower64, upper64⟩ := f64_magnitude_range hv hlt
  obtain ⟨lower, upper⟩ := div64_hundred_magnitude_range lower64 upper64
  obtain ⟨⟨man_ge, man_le⟩, exp_ge, exp_lt⟩ := f32_fields_range lower upper
  exact packF32_normal man_ge man_le (by omega) (by omega)

/-- Settles O36: neither the polynomial nor the product with 25 leaves the signed 64-bit range. -/
theorem compTNeverWraps : Obligations.CompTNeverWraps := by
  intro c raw d tf
  have poly : compTPoly c raw = c.t2.toNat * d * 2 ^ 18 + c.t3.toInt * d ^ 2 := by
    rw [compTPoly_eq]
    simp only [compTDiff, t1Z, t2Z, t3Z, d]
    ring
  have fine : compTFine c raw = tf := by rw [compTFine, poly]; rfl
  obtain ⟨lower, upper⟩ := compTFine_range c raw
  rw [compT, compT100, mulW, wrap64_of_range (by omega) (by omega), fine, mul_comm]
  rfl

/-- Settles O39: a value below `2^64` divided by `2^40`. -/
theorem pressureRange : Obligations.PressureRange :=
  fun _ _ _ _ => Nat.div_lt_of_lt_mul (u64_lt _)

/-- Settles O32: each false precondition is the failing case of its operation. -/
theorem preconditionFailures : Obligations.PreconditionFailures := by
  intro s c hi hc
  refine ⟨fun raw hp => ?compTemp, fun raw hp => ?compPress, fun p0 p1 p2 t0 t1 t2 rest hb hp => ?readTp⟩
  case compTemp => exact exec_compTemp_of_effect (.compTempFails hi hc (compPrecond_eq_false_iff.mpr hp))
  case compPress => exact exec_compPress_of_effect (.compPressFails hi hc (compPrecond_eq_false_iff.mpr hp))
  case readTp =>
    have hp' := Bool.and_eq_false_iff.mpr (hp.imp compPrecond_eq_false_iff.mpr compPrecond_eq_false_iff.mpr)
    exact exec_readTp_of_effect (.readTpPrecond hi hb rfl hc hp')

/-- Settles O33: the successful case of READ_TP, whose pressure reads the fine temperature just written. -/
theorem readTpResult : Obligations.ReadTpResult := by
  intro s c p0 p1 p2 t0 t1 t2 rest hi hc hb hT hP
  have hp := Bool.and_eq_true_iff.mpr ⟨compPrecond_eq_true_iff.mpr hT, compPrecond_eq_true_iff.mpr hP⟩
  rw [exec_readTp_of_effect (.readTp hi hb rfl hc hp), compPNow_setTFine]
  rfl

/-- Settles O34, by the cases of READ_TP. -/
theorem readTpEffect : Obligations.ReadTpEffect := by
  intro s t hexec
  cases exec_readTp_next hexec with
  | gate => exact ⟨rfl, rfl, _, _, rfl, .inr ⟨.inr rfl, rfl, rfl⟩⟩
  | readTpFails => exact ⟨rfl, rfl, _, _, rfl, .inr ⟨.inl rfl, rfl, rfl⟩⟩
  | readTpPrecond => exact ⟨rfl, rfl, _, _, rfl, .inr ⟨.inl rfl, rfl, rfl⟩⟩
  | readTp _ _ _ hc => exact ⟨rfl, rfl, _, _, rfl, .inl ⟨rfl, _, _, _, _, _, _, _, hc, rfl, rfl⟩⟩

/-- Settles O35: with another fine temperature READ_TP takes the same case, and a success writes the fine temperature
before the pressure reads it. -/
theorem readTpIgnoresOlderTFine : Obligations.ReadTpIgnoresOlderTFine := by
  intro s t x hexec
  cases exec_readTp_next hexec with
  | gate _ hi => exact ⟨_, exec_readTp_of_effect (.gate rfl hi), rfl, rfl⟩
  | readTpFails hi hb => exact ⟨_, exec_readTp_of_effect (.readTpFails hi hb), rfl, rfl⟩
  | readTpPrecond hi hb hn hc hp =>
    exact ⟨_, exec_readTp_of_effect (.readTpPrecond hi hb hn hc hp), rfl, rfl⟩
  | readTp hi hb hn hc hp => exact ⟨_, exec_readTp_of_effect (.readTp hi hb hn hc hp), rfl, rfl⟩

/-- Settles O30: the successful case of COMP_TEMP. -/
theorem compTempResult : Obligations.CompTempResult :=
  fun _ _ _ hi hc hp => exec_compTemp_of_effect (.compTemp hi hc (compPrecond_eq_true_iff.mpr hp))

/-- Settles O31: the successful case of COMP_PRESS. -/
theorem compPressResult : Obligations.CompPressResult :=
  fun _ _ _ hi hc hp => exec_compPress_of_effect (.compPress hi hc (compPrecond_eq_true_iff.mpr hp))

/-- Settles O59: the case of READ_TP whose data read fails. -/
theorem readTpFailedRead : Obligations.ReadTpFailedRead :=
  fun _ _ hi hb => exec_readTp_of_effect (.readTpFails hi hb)

end Sys2Proof.Machine
end

section
/-! SUPPORT. Fields and headers of the frames (30_encoding.md R68, R71, R72). -/

namespace Sys2Proof

variable {p : Params} {h : Byte}

theorem toNat_le24 (b0 b1 b2 : Byte) :
    (le24 b0 b1 b2).toNat = b0.toNat + 2 ^ 8 * b1.toNat + 2 ^ 16 * b2.toNat := by
  change (b2 ++ b1 ++ b0 : BitVec (8 + 8 + 8)).toNat = _
  rw [BitVec.toNat_append, BitVec.toNat_append, ← Nat.shiftLeft_add_eq_or_of_lt b0.isLt,
    ← Nat.shiftLeft_add_eq_or_of_lt b1.isLt, Nat.shiftLeft_eq, Nat.shiftLeft_eq]
  ring

/-- The bytes 42_fifo.md R164 skips are the ones the decoder has no name for. -/
theorem namedHeader_eq_false_of_other (hd : p.headersDistinct = true)
    (hh : h = p.hdrCfgChg ∨
      h ∉ [p.hdrEmpty, p.hdrCfgErr, p.hdrTime, p.hdrPress, p.hdrTemp, p.hdrTempPress] ∨
      h = p.hdrTempPress ∧ p.combined = .skip1) : p.namedHeader h = false := by
  rw [namedHeader_eq_false]
  obtain rfl | hnone | ⟨rfl, skip⟩ := hh
  · simp only [Params.headersDistinct, Params.headers, decide_eq_true_eq, List.nodup_cons, List.mem_cons, not_or] at hd
    grind
  · simp only [List.mem_cons, not_or] at hnone
    tauto
  · obtain ⟨-, -, -, -, empty, cfgErr, time, press, temp⟩ := headers_ne_earlier hd
    simp [*]

theorem frameLength_hdrTempPress (hd : p.headersDistinct = true) (split : p.combined = .split) :
    frameLength p p.hdrTempPress = 7 := by
  obtain ⟨-, -, -, -, empty, cfgErr, time, press, temp⟩ := headers_ne_earlier hd
  exact frameLength_of_twoFields (by simp [*]) (by simp [*]) ⟨rfl, split⟩

theorem frameLength_of_single (hd : p.headersDistinct = true) (hh : h ∈ [p.hdrTime, p.hdrTemp, p.hdrPress]) :
    frameLength p h = 4 := by
  obtain ⟨-, ⟨timeEmpty, timeCfgErr⟩, ⟨pressEmpty, pressCfgErr, -⟩, ⟨tempEmpty, tempCfgErr, -⟩, -⟩ :=
    headers_ne_earlier hd
  simp only [List.mem_cons, List.not_mem_nil, or_false] at hh
  refine frameLength_of_oneField ?_ (by tauto)
  obtain rfl | rfl | rfl := hh <;> simp [*]

end Sys2Proof
end

section
/-! SUPPORT. Reads and writes over two stretches of a buffer, and `MemRead` (20_memory.md R41): it answers inside the
buffer only, and a buffer made from a payload reads as the payload. -/

namespace Sys2Proof.Machine

section

variable {α : Type} {m : List (Nat × α)} {a n : Nat}

/-- `Memory.read_write` with the index read compared to the index written. -/
theorem Memory.read_write_eq (m : List (Nat × α)) (a : Nat) (v : α) (k : Nat) :
    Memory.read (Memory.write m a v) k = if k = a then some v else Memory.read m k := by
  rw [Memory.read_write]
  simp only [eq_comm]

/-- What a buffer holds after elements were written from index 0 on (20_memory.md R43). -/
theorem Memory.read_writeAll_zero (m : List (Nat × α)) (vs : List α) (k : Nat) :
    Memory.read (Memory.writeAll m 0 vs) k = if k < vs.length then vs[k]? else Memory.read m k := by
  simp [Memory.read_writeAll]

theorem Memory.writeAll_append (m : List (Nat × α)) (a : Nat) (xs ys : List α) :
    Memory.writeAll m a (xs ++ ys) = Memory.writeAll (Memory.writeAll m a xs) (a + xs.length) ys := by
  induction xs generalizing m a with
  | nil => rfl
  | cons x xs ih => rw [List.cons_append, Memory.writeAll, ih, List.length_cons, Nat.add_right_comm]; rfl

theorem Memory.readAll_succ_eq_some {v : α} {vs : List α} :
    Memory.readAll m a (n + 1) = some (v :: vs) ↔
      Memory.read m a = some v ∧ Memory.readAll m (a + 1) n = some vs := by
  rw [Memory.readAll]
  split <;> simp_all

theorem Memory.readAll_append {xs ys : List α} :
    Memory.readAll m a (xs ++ ys).length = some (xs ++ ys) ↔
      Memory.readAll m a xs.length = some xs ∧ Memory.readAll m (a + xs.length) ys.length = some ys := by
  induction xs generalizing a with
  | nil => simp [Memory.readAll]
  | cons x xs ih =>
    simp only [List.cons_append, List.length_cons, Memory.readAll_succ_eq_some, ih, and_assoc, Nat.add_right_comm a 1,
      Nat.add_assoc a]

theorem Memory.readAll_ofList {vs : List α} (h : a + n ≤ vs.length) :
    Memory.readAll (Memory.ofList 0 vs) a n = some ((vs.drop a).take n) := by
  induction n generalizing a with
  | zero => simp [Memory.readAll]
  | succ n ih =>
    have inside : a < vs.length := by omega
    rw [List.drop_eq_getElem_cons inside, List.take_succ_cons, Memory.readAll_succ_eq_some]
    exact ⟨by simp [Memory.read_ofList, inside], ih (by omega)⟩

end

variable {m : List Host.Cell} {len a n : Nat} {bs xs ys payload : List Byte}

theorem memRead_eq_some : memRead m len a n = some bs ↔ a + n ≤ len ∧ Memory.readAll m a n = some bs := by
  simp [memRead]

theorem memRead_of_past_end (h : len < a + n) : memRead m len a n = none :=
  if_neg (Nat.not_le.mpr h)

theorem memRead_append :
    memRead m len a (xs ++ ys).length = some (xs ++ ys) ↔
      memRead m len a xs.length = some xs ∧ memRead m len (a + xs.length) ys.length = some ys := by
  rw [memRead_eq_some, memRead_eq_some, memRead_eq_some, Memory.readAll_append, List.length_append]
  constructor
  · rintro ⟨inside, readXs, readYs⟩
    exact ⟨⟨by omega, readXs⟩, by omega, readYs⟩
  · rintro ⟨⟨-, readXs⟩, inside, readYs⟩
    exact ⟨by omega, readXs, readYs⟩

theorem memRead_ofList :
    memRead (Memory.ofList 0 payload) payload.length a n =
      if a + n ≤ payload.length then some ((payload.drop a).take n) else none := by
  unfold memRead
  split
  · next inside => exact Memory.readAll_ofList inside
  · rfl

end Sys2Proof.Machine
end

section
/-! SUPPORT. READ_FIFO run forward: each case of `CommandEffect` is what it answers (42_fifo.md R150, R153). -/

namespace Sys2Proof.Machine

variable {s t : State} {cap len : Word16}

/-- The converse of `exec_readFifo_next`. -/
theorem exec_readFifo_of_effect (e : CommandEffect s (.readFifo cap) t) : exec (.readFifo cap) s = .next t := by
  change execReadFifo cap s = .next t
  unfold execReadFifo
  cases e with
  | gate _ hi => exact gated_of_not_inited hi _
  | fifoLengthFails hi h1 => rw [gated_of_inited hi, busRead_of_ioError h1]; rfl
  | fifoTooSmall hi h1 hl hcap =>
    rw [gated_of_inited hi, busRead_of_bytes h1 hl]
    exact if_pos hcap
  | fifoEmpty hi h1 hl hcap hz =>
    rw [gated_of_inited hi, busRead_of_bytes h1 hl]
    exact (if_neg hcap).trans (if_pos hz)
  | @burstFails _ l r1 r2 hi h1 hl hcap hz h2 =>
    rw [gated_of_inited hi, busRead_of_bytes h1 hl]
    refine (if_neg hcap).trans ((if_neg hz).trans ?_)
    exact busRead_of_ioError (s := lengthRead s r1) h2 _
  | @burst _ l d r1 r2 hi h1 hl hcap hz h2 hd =>
    rw [gated_of_inited hi, busRead_of_bytes h1 hl]
    refine (if_neg hcap).trans ((if_neg hz).trans ?_)
    exact busRead_of_bytes (s := lengthRead s r1) h2 hd _

theorem burstRead_eq {r1 r2 : List BusAnswer} : burstRead s len r1 r2 =
    { s with
      bus := r2
      trace := s.trace ++ [.busRead s.params.fifoLenReg 2, .busRead s.params.fifoDataReg len.toNat] } := by
  simp [burstRead, lengthRead, State.issue]

/-- A READ_FIFO that answers a length wrote that many bytes of the bus, or none, to the output buffer. -/
theorem CommandEffect.readFifo_success (e : CommandEffect s (.readFifo cap) t)
    (h : t.responses = s.responses ++ [⟨statusOk, .length len⟩]) :
    ∃ d : List Byte, d.length = len.toNat ∧ (0 < d.length → .bytes d ∈ s.bus) ∧
      t.outBuf = Memory.writeAll s.outBuf 0 d := by
  cases e with
  | @fifoEmpty _ l r1 =>
    obtain rfl : 0#16 = len := by simpa [lengthRead] using h
    exact ⟨[], rfl, fun hpos => absurd hpos (Nat.lt_irrefl 0), rfl⟩
  | @burst _ l d r1 r2 hi h1 hl hcap hz h2 hd =>
    obtain rfl : fifoLength s.params l = len := by simpa [burstRead_eq] using h
    exact ⟨d, hd, fun _ => by simp [h1, h2], by simp [burstRead_eq]⟩
  | _ => simp [burstRead_eq, lengthRead] at h

theorem CommandEffect.readFifo_block_eq (e : CommandEffect s (.readFifo cap) t) :
    t.inited = s.inited ∧ t.calib = s.calib ∧ t.tFine = s.tFine := by
  cases e <;> exact ⟨rfl, rfl, rfl⟩

theorem length_freeBytes (draws n : Nat) : (freeBytes draws n).length = n := by
  simp [freeBytes]

theorem getElem?_freeBytes {draws n a : Nat} (h : a < n) :
    (freeBytes draws n)[a]? = some (Config.freeByte (draws + a)) := by
  simp [freeBytes, h]

end Sys2Proof.Machine
end

section
/-! SUPPORT. The frames run forward: each case of `FrameEffect` is what a frame answers (42_fifo.md R159 to R165). -/

namespace Sys2Proof.Machine

variable {s t : State} {i : Instr} {sc : Scan}

/-- Every frame is executed on a scan. -/
theorem exists_exec_eq_onScan (hi : i.isCommand = false) (s : State) : ∃ body, exec i s = onScan s body := by
  cases i <;> cases hi
  case hdrTempPress =>
    simp only [exec, execHdrTempPress]
    split <;> exact ⟨_, rfl⟩
  all_goals exact ⟨_, rfl⟩

theorem exec_frame_of_no_scan (hi : i.isCommand = false) (hs : s.scan = none) : exec i s = .fault .noScan := by
  obtain ⟨body, hbody⟩ := exists_exec_eq_onScan hi s
  rw [hbody, onScan_of_none hs]

theorem exec_frame_of_full (hi : i.isCommand = false) (hs : s.scan = some sc) (hr : sc.cap ≤ sc.count) :
    exec i s = .next (s.endScan sc) := by
  obtain ⟨body, hbody⟩ := exists_exec_eq_onScan hi s
  rw [hbody, onScan_of_full hs hr]

theorem splitFrame_of_calib {c : Calib} {rawT rawP : Raw} (hs : s.scan = some sc) (hr : sc.count < sc.cap)
    (hc : s.calib = some c) :
    splitFrame rawT rawP s =
      if sc.cap ≤ sc.count + 1 then .next ((emitTemp c rawT sc 0 s).endScan { sc with count := sc.count + 1 })
      else .next (emitPress c rawP { sc with count := sc.count + 1 } 7 (emitTemp c rawT sc 0 s)) := by
  rw [splitFrame, onScan_of_room hs hr, withCalib_of_some hc]

/-- The pressure half of a combined frame is compensated with the fine temperature of its temperature half. -/
theorem compPNow_emitTemp (s : State) (sc : Scan) (n : Nat) (c : Calib) (rawT rawP : Raw) :
    compPNow (emitTemp c rawT sc n s) c rawP = compP s.params.pd5Form c (compT c rawT).1 rawP :=
  compPNow_setTFine s c rawT rawP

/-- The converse of `exec_frame_next`. -/
theorem exec_frame_of_effect (hi : i.isCommand = false) (e : FrameEffect s i t) : exec i s = .next t := by
  cases e with
  | full hs hr => exact exec_frame_of_full hi hs hr
  | stop hs hr h => obtain rfl | rfl := h <;> exact onScan_of_room hs hr _
  | skip hs hr h =>
    obtain ⟨header, rfl⟩ | ⟨rawT, rawP, rfl, hp⟩ := h
    · exact onScan_of_room hs hr _
    · simp only [exec, execHdrTempPress, hp]
      exact onScan_of_room hs hr _
  | time hs hr => exact onScan_of_room hs hr _
  | press hs hr hc => exact (onScan_of_room hs hr _).trans (withCalib_of_some hc _)
  | temp hs hr hc => exact (onScan_of_room hs hr _).trans (withCalib_of_some hc _)
  | halfPair hs hr hc hp hfull =>
    simp only [exec, execHdrTempPress, hp, splitFrame_of_calib hs hr hc, if_pos hfull]
  | pair hs hr hc hp hroom =>
    simp only [exec, execHdrTempPress, hp, splitFrame_of_calib hs hr hc, if_neg (Nat.not_le.mpr hroom)]

end Sys2Proof.Machine
end

section
/-! SUPPORT. One pass of a running scan, run forward: the exits before a frame, and a frame found from its bytes
(42_fifo.md R157, R158, R165, R166; 30_encoding.md R68). -/

namespace Sys2Proof.Machine

variable {s t : State} {i : Instr} {sc : Scan}

theorem fetchFrame_of_stops (h : ScanStops s sc) : fetchFrame s sc = .settled (s.endScan sc) := by
  unfold fetchFrame
  split
  · rfl
  · next hroom =>
    obtain h | h | ⟨header, hread, hcut⟩ := h
    · exact absurd (.inl h) hroom
    · exact absurd (.inr h) hroom
    · simp [hread, hcut]

theorem fetchFrame_of_nextFrame (h : NextFrame s sc i) : fetchFrame s sc = .run i s := by
  obtain ⟨hcursor, hcount, header, bs, hread, hfits, hbs, hi⟩ := h
  simp [fetchFrame, hread, hbs, hi, Nat.not_le.mpr hcursor, Nat.not_le.mpr hcount, Nat.not_lt.mpr hfits]

theorem fetch_of_scan (hd : s.params.headersDistinct = true) (hs : s.scan = some sc) : fetch s = fetchFrame s sc := by
  simp [fetch, hd, hs]

theorem step_of_stops (hd : s.params.headersDistinct = true) (hs : s.scan = some sc) (h : ScanStops s sc) :
    step s = .next (s.endScan sc) := by
  rw [step, fetch_of_scan hd hs, fetchFrame_of_stops h]

theorem step_of_nextFrame (hd : s.params.headersDistinct = true) (hs : s.scan = some sc) (h : NextFrame s sc i) :
    step s = exec i s :=
  step_of_fetch_run ((fetch_of_scan hd hs).trans (fetchFrame_of_nextFrame h))

/-- The encoding of a frame at the cursor is fetched as that frame. -/
theorem NextFrame.of_encode {bs : List Byte} (hd : s.params.headersDistinct = true) (hr : sc.count < sc.cap)
    (hi : i.isCommand = false) (hwf : i.wf s.params = true) (henc : encode s.params i = .frame bs)
    (hread : memRead s.inBuf sc.len sc.cursor bs.length = some bs) : NextFrame s sc i := by
  obtain ⟨header, payload, henc', hlength, hdec⟩ := framesDecodeFromTheirEncoding s.params i [] hd hi hwf
  obtain rfl : bs = header :: payload := Encoded.frame.inj (henc.symm.trans henc')
  obtain ⟨hfits, -⟩ := memRead_eq_some.mp hread
  obtain ⟨hheader, -⟩ := memRead_append (xs := [header]) (ys := payload) |>.mp hread
  rw [List.length_cons] at hfits hlength hread
  exact ⟨by omega, hr, header, header :: payload, hheader, by omega, hlength ▸ hread, by simpa using hdec⟩

/-- A step over the encoding of a frame executes the frame. -/
theorem step_of_encode {bs : List Byte} (hd : s.params.headersDistinct = true) (hs : s.scan = some sc)
    (hr : sc.count < sc.cap) (hi : i.isCommand = false) (hwf : i.wf s.params = true)
    (henc : encode s.params i = .frame bs) (hread : memRead s.inBuf sc.len sc.cursor bs.length = some bs) :
    step s = exec i s :=
  step_of_nextFrame hd hs (.of_encode hd hr hi hwf henc hread)

end Sys2Proof.Machine
end

section
/-! SUPPORT. The decode loop of Safety.lean, one pass at a time: its exits, and what it does over the encoding of a
frame (42_fifo.md R157 to R166). -/

namespace Sys2Proof.Machine

variable {p : Params} {c : Calib} {cap fuel n : Nat} {tf : Int} {h : Byte} {bs bytes rest : List Byte} {i : Instr}
  {out : List Frame × Int}

/-- What a frame that does not stop the scan gives when `n` frames are written and the fine temperature is `tf`: its own
frames in order, and the new fine temperature (42_fifo.md R159 to R162, R164). -/
def passOutput (p : Params) (c : Calib) (cap n : Nat) (tf : Int) : Instr → List Frame × Int
  | .hdrTime raw => ([⟨.sensorTime, raw, none⟩], tf)
  | .hdrTemp raw => ([⟨.temperature, raw, some (celsius (compT c raw).2)⟩], (compT c raw).1)
  | .hdrPress raw => ([⟨.pressure, raw, some (pascals (compP p.pd5Form c tf raw))⟩], tf)
  | .hdrTempPress rawT rawP =>
    (⟨.temperature, rawT, some (celsius (compT c rawT).2)⟩ ::
      if cap ≤ n + 1 then [] else [⟨.pressure, rawP, some (pascals (compP p.pd5Form c (compT c rawT).1 rawP))⟩],
      (compT c rawT).1)
  | _ => ([], tf)

theorem passOutput_count_le (hr : n < cap) : n + (passOutput p c cap n tf i).1.length ≤ cap := by
  cases i
  case hdrTempPress rawT rawP =>
    simp only [passOutput]
    split
    · simpa using hr
    · next room => exact Nat.not_le.mp room
  all_goals simp only [passOutput, List.length_cons, List.length_nil]; omega

theorem toInt_ofInt_compT (c : Calib) (raw : Raw) : (BitVec.ofInt 64 (compT c raw).1).toInt = (compT c raw).1 := by
  obtain ⟨lower, upper⟩ := compTFine_range c raw
  exact toInt_ofInt64_of_range (v := compTFine c raw) (by omega) (by omega)

/-- A frame leaves the fine temperature or writes a value of `CompT`, which fits in 64 bits (10_state.md R26). -/
theorem toInt_passOutput_tFine (p : Params) (c : Calib) (cap n : Nat) (x : Word64) (i : Instr) :
    (BitVec.ofInt 64 (passOutput p c cap n x.toInt i).2).toInt = (passOutput p c cap n x.toInt i).2 := by
  cases i
  case hdrTemp raw => exact toInt_ofInt_compT c raw
  case hdrTempPress rawT rawP => exact toInt_ofInt_compT c rawT
  all_goals exact congrArg BitVec.toInt BitVec.ofInt_toInt

/-- R165. -/
theorem decodeLoop_of_full (hr : cap ≤ n) : decodeLoop p c cap fuel n tf bytes = ([], tf) := by
  unfold decodeLoop
  split
  · rfl
  · exact if_pos hr

/-- R166. -/
theorem decodeLoop_nil : decodeLoop p c cap fuel n tf [] = ([], tf) := by
  unfold decodeLoop
  split
  · rfl
  · exact ite_self _

/-- A header with a payload opens a frame of 4 or of 7 bytes; any other byte stands alone. -/
theorem frameLength_cases (p : Params) (h : Byte) :
    frameLength p h = 1 ∨
      ¬(h = p.hdrEmpty ∨ h = p.hdrCfgErr) ∧
        (frameLength p h = 4 ∧ (h = p.hdrTime ∨ h = p.hdrTemp ∨ h = p.hdrPress) ∨
          frameLength p h = 7 ∧ ¬(h = p.hdrTime ∨ h = p.hdrTemp ∨ h = p.hdrPress) ∧ h = p.hdrTempPress ∧
            p.combined = .split) := by
  unfold frameLength
  split_ifs <;> tauto

/-- R158: a frame whose bytes are cut off ends the loop. -/
theorem decodeLoop_of_cut (hcut : (h :: rest).length < frameLength p h) :
    decodeLoop p c cap fuel n tf (h :: rest) = ([], tf) := by
  rw [List.length_cons] at hcut
  unfold decodeLoop
  split
  · rfl
  · dsimp only
    split
    · rfl
    · obtain hlen | ⟨stop, ⟨hlen, one⟩ | ⟨hlen, one, two⟩⟩ := frameLength_cases p h
      · omega
      · rw [if_neg stop, if_pos one]
        split
        · simp only [List.length_cons] at hcut
          omega
        · rfl
      · rw [if_neg stop, if_neg one, if_pos two]
        split
        · simp only [List.length_cons] at hcut
          omega
        · rfl

/-- Any frame but a stop marker gives its own frames, then those of the bytes after it. -/
theorem decodeLoop_of_pass (hd : p.headersDistinct = true) (hr : n < cap) (hframe : i.isCommand = false)
    (hwf : i.wf p = true) (stop : ¬(i = .hdrEmpty ∨ i = .hdrCfgErr)) (henc : encode p i = .frame bs)
    (hout : passOutput p c cap n tf i = out) :
    decodeLoop p c cap (fuel + 1) n tf (bs ++ rest) =
      (out.1 ++ (decodeLoop p c cap fuel (n + out.1.length) out.2 rest).1,
        (decodeLoop p c cap fuel (n + out.1.length) out.2 rest).2) := by
  subst hout
  obtain ⟨-, time, press, ⟨temp, temp', temp_ne_time, temp_ne_press⟩, tempPress⟩ := headers_ne_earlier hd
  have room : ¬cap ≤ n := Nat.not_le.mpr hr
  rw [decodeLoop.eq_def p c cap (fuel + 1)]
  cases i <;> cases hframe <;> cases henc
  case hdrEmpty => simp at stop
  case hdrCfgErr => simp at stop
  case hdrTime raw => simp [room, time, temp_ne_time.symm, bytes24, le24_byteOf, passOutput]
  case hdrPress raw => simp [room, press, temp_ne_press.symm, bytes24, le24_byteOf, passOutput]
  case hdrTemp raw => simp [room, temp, temp', temp_ne_time, bytes24, le24_byteOf, passOutput]
  case hdrTempPress rawT rawP =>
    have split : p.combined = .split := by simpa [Instr.wf] using hwf
    by_cases full : cap ≤ n + 1
    · simp [room, tempPress, bytes24, le24_byteOf, passOutput, split, full, decodeLoop_of_full]
    · simp [room, tempPress, bytes24, le24_byteOf, passOutput, split, full]
  case hdrOther header =>
    have other := namedHeader_eq_false.mp (by simpa [Instr.wf] using hwf)
    simp [room, passOutput, other]

/-- R163. -/
theorem decodeLoop_of_stop (hi : i = .hdrEmpty ∨ i = .hdrCfgErr) (henc : encode p i = .frame bs) :
    decodeLoop p c cap fuel n tf (bs ++ rest) = ([], tf) := by
  unfold decodeLoop
  split
  · rfl
  · obtain rfl | rfl := hi <;> cases henc <;> simp

theorem exists_oneField (mk : Raw → Instr) (hlen : 3 ≤ bs.length) : ∃ i, oneField mk bs = .ok i :=
  match bs, hlen with
  | _ :: _ :: _ :: _, _ => ⟨_, rfl⟩

theorem exists_twoFields (mk : Raw → Raw → Instr) (hlen : 6 ≤ bs.length) : ∃ i, twoFields mk bs = .ok i :=
  match bs, hlen with
  | _ :: _ :: _ :: _ :: _ :: _ :: _, _ => ⟨_, rfl⟩

/-- A frame that is not cut off decodes. -/
theorem exists_decodeFrame (hlen : frameLength p h ≤ (h :: rest).length) :
    ∃ i, decodeFrame p (h :: rest) = .ok i := by
  rw [List.length_cons] at hlen
  simp only [decodeFrame]
  split_ifs with empty cfgErr time press temp two
  · exact ⟨_, rfl⟩
  · exact ⟨_, rfl⟩
  · have length : frameLength p h = 4 := frameLength_of_oneField (by tauto) (.inl time)
    exact exists_oneField _ (by omega)
  · have length : frameLength p h = 4 := frameLength_of_oneField (by tauto) (.inr (.inl press))
    exact exists_oneField _ (by omega)
  · have length : frameLength p h = 4 := frameLength_of_oneField (by tauto) (.inr (.inr temp))
    exact exists_oneField _ (by omega)
  · have length : frameLength p h = 7 := frameLength_of_twoFields (by tauto) (by tauto) two
    exact exists_twoFields _ (by omega)
  · exact ⟨_, rfl⟩

theorem length_pos_of_encode (hi : i.isCommand = false) (henc : encode p i = .frame bs) : 0 < bs.length := by
  obtain ⟨h, payload, henc'⟩ := encode_of_isFrame (p := p) hi
  obtain rfl : bs = h :: payload := Encoded.frame.inj (henc.symm.trans henc')
  exact Nat.succ_pos _

/-- How the bytes not yet read begin: with nothing, with a frame that is cut off, or with a whole frame. -/
inductive Unread (p : Params) : List Byte → Prop
  | none : Unread p []
  | cut {h : Byte} {rest : List Byte} (hcut : (h :: rest).length < frameLength p h) : Unread p (h :: rest)
  | frame {i : Instr} {bs rest : List Byte} (hi : i.isCommand = false) (hwf : i.wf p = true)
      (henc : encode p i = .frame bs) : Unread p (bs ++ rest)

theorem unread_cases (p : Params) (bytes : List Byte) : Unread p bytes := by
  cases bytes with
  | nil => exact .none
  | cons h rest =>
    obtain hcut | hlen := lt_or_ge (h :: rest).length (frameLength p h)
    · exact .cut hcut
    · obtain ⟨i, hi⟩ := exists_decodeFrame hlen
      obtain ⟨henc, -, hwf⟩ := encode_of_decodeFrame hi
      rw [← List.take_append_drop (frameLength p h) (h :: rest)]
      exact .frame (decodeFrame_ok hi).1 hwf henc

/-- The loop writes inside the capacity (20_memory.md R42). -/
theorem decodeLoop_count_le (hd : p.headersDistinct = true) (hn : n ≤ cap) :
    n + (decodeLoop p c cap fuel n tf bytes).1.length ≤ cap := by
  induction fuel generalizing n tf bytes with
  | zero => exact hn
  | succ fuel ih =>
    obtain hr | hr := hn.eq_or_lt
    · rw [decodeLoop_of_full hr.ge]
      exact hn
    · cases unread_cases p bytes with
      | none => rw [decodeLoop_nil]; exact hn
      | cut hcut => rw [decodeLoop_of_cut hcut]; exact hn
      | @frame i bs rest hi hwf henc =>
        by_cases stop : i = .hdrEmpty ∨ i = .hdrCfgErr
        · rw [decodeLoop_of_stop stop henc]; exact hn
        · rw [decodeLoop_of_pass hd hr hi hwf stop henc rfl, List.length_append, ← Nat.add_assoc]
          exact ih (passOutput_count_le hr)

end Sys2Proof.Machine
end

section
/-! SUPPORT. The passes of a scan simulate the decode loop (42_fifo.md R157, R168): each frame executed gives the output
of its pass, and the rest of the scan is the loop on the bytes after it. -/

namespace Sys2Proof.Machine

variable {s t : State} {sc : Scan} {c : Calib} {i : Instr} {out more : List Frame × Int} {bs bytes : List Byte}

/-- The scan after a frame of `span` bytes with the output `out`. -/
def Scan.afterPass (sc : Scan) (span : Nat) (out : List Frame × Int) : Scan :=
  { sc with cursor := sc.cursor + span, count := sc.count + out.1.length }

/-- The state after a frame of `span` bytes with the output `out`. -/
def State.afterPass (s : State) (sc : Scan) (span : Nat) (out : List Frame × Int) : State :=
  { s with
    frames := Memory.writeAll s.frames sc.count out.1
    tFine := BitVec.ofInt 64 out.2
    scan := some (sc.afterPass span out) }

theorem State.setTFine_toInt (s : State) : s.setTFine s.tFine.toInt = s := by
  rw [State.setTFine, BitVec.ofInt_toInt]

theorem State.afterPass_none {span : Nat} {tf : Int} :
    s.afterPass sc span ([], tf) = (s.setTFine tf).moveScan sc span := rfl

theorem State.afterPass_one {span : Nat} {tf : Int} {f : Frame} :
    s.afterPass sc span ([f], tf) = (s.setTFine tf).emit sc span f := rfl

theorem State.afterPass_two {span : Nat} {tf : Int} {f g : Frame} :
    s.afterPass sc span ([f, g], tf) =
      ((s.setTFine tf).emit sc 0 f).emit { sc with count := sc.count + 1 } span g := rfl

/-- A frame that does not stop the scan gives the output of its pass; the scan ends only with its capacity reached. -/
theorem frameEffect_afterPass (hs : s.scan = some sc) (hr : sc.count < sc.cap) (hc : s.calib = some c)
    (hi : i.isCommand = false) (hwf : i.wf s.params = true) (stop : ¬(i = .hdrEmpty ∨ i = .hdrCfgErr))
    (henc : encode s.params i = .frame bs) (hout : passOutput s.params c sc.cap sc.count s.tFine.toInt i = out) :
    FrameEffect s i (s.afterPass sc bs.length out) ∨
      sc.cap ≤ sc.count + out.1.length ∧
        FrameEffect s i ((s.afterPass sc bs.length out).endScan (sc.afterPass bs.length out)) := by
  subst hout
  cases i <;> cases hi <;> cases henc
  case hdrEmpty => simp at stop
  case hdrCfgErr => simp at stop
  case hdrTime raw =>
    left
    rw [passOutput, State.afterPass_one, State.setTFine_toInt]
    exact .time hs hr
  case hdrPress raw =>
    left
    rw [passOutput, State.afterPass_one, State.setTFine_toInt]
    exact .press hs hr hc
  case hdrTemp raw =>
    left
    exact .temp hs hr hc
  case hdrTempPress rawT rawP =>
    have split : s.params.combined = .split := by simpa [Instr.wf] using hwf
    by_cases full : sc.cap ≤ sc.count + 1
    · right
      rw [passOutput, if_pos full]
      exact ⟨full, .halfPair hs hr hc split full⟩
    · left
      rw [passOutput, if_neg full, State.afterPass_two, ← compPNow_emitTemp s sc 0]
      exact .pair hs hr hc split (Nat.not_le.mp full)
  case hdrOther header =>
    left
    rw [passOutput, State.afterPass_none, State.setTFine_toInt]
    · exact .skip hs hr (.inl ⟨header, rfl⟩)
    all_goals simp

/-- The end of a scan that was at `sc` in `s`, with the frames of `out` still to come. -/
structure ScanResult (s : State) (sc : Scan) (out : List Frame × Int) (t : State) : Prop where
  state : t = { s with
    scan := none
    tFine := t.tFine
    frames := t.frames
    responses := s.responses ++ [⟨statusOk, .frameCount (BitVec.ofNat 16 (sc.count + out.1.length))⟩] }
  frames : t.frames = Memory.writeAll s.frames sc.count out.1
  tFine : t.tFine.toInt = out.2

theorem ScanResult.endScan (s : State) (sc : Scan) : ScanResult s sc ([], s.tFine.toInt) (s.endScan sc) :=
  ⟨rfl, rfl, rfl⟩

theorem ScanResult.afterPass {span : Nat} (h : ScanResult (s.afterPass sc span out) (sc.afterPass span out) more t) :
    ScanResult s sc (out.1 ++ more.1, more.2) t := by
  obtain ⟨state, frames, tFine⟩ := h
  refine ⟨?_, ?_, tFine⟩
  · rw [List.length_append, ← Nat.add_assoc]
    exact state
  · rw [Memory.writeAll_append]
    exact frames

theorem run_succ_of_step {k : Nat} (h : step s = .next t) :
    Sys2Proof.core.run (k + 1) s = Sys2Proof.core.run k t := by
  simp [Host.Core.run, Sys2Proof.core, h]

/-- A run of at most `bound` passes ends the scan with `out`. -/
def ScanEnds (s : State) (sc : Scan) (out : List Frame × Int) (bound : Nat) : Prop :=
  ∃ passes t, passes ≤ bound ∧ Sys2Proof.core.run passes s = .next t ∧ ScanResult s sc out t

theorem ScanEnds.of_endScan {bound : Nat} (hstep : step s = .next (s.endScan sc)) :
    ScanEnds s sc ([], s.tFine.toInt) (bound + 1) :=
  ⟨1, _, Nat.le_add_left 1 bound, run_succ_of_step hstep, .endScan s sc⟩

theorem ScanEnds.of_pass {bound rest span : Nat} (hstep : step s = .next (s.afterPass sc span out))
    (h : ScanEnds (s.afterPass sc span out) (sc.afterPass span out) more rest) (hle : rest < bound) :
    ScanEnds s sc (out.1 ++ more.1, more.2) bound := by
  obtain ⟨passes, t, hpasses, hrun, result⟩ := h
  exact ⟨passes + 1, t, by omega, (run_succ_of_step hstep).trans hrun, result.afterPass⟩

/-- The pass that reaches the capacity has no loop after it. -/
theorem ScanEnds.of_last_pass {bound span : Nat}
    (hstep : step s = .next ((s.afterPass sc span out).endScan (sc.afterPass span out))) :
    ScanEnds s sc (out.1 ++ [], (s.afterPass sc span out).tFine.toInt) (bound + 1) :=
  ⟨1, _, Nat.le_add_left 1 bound, run_succ_of_step hstep, (ScanResult.endScan _ _).afterPass⟩

/-- With `bytes` in the input buffer from the cursor on, the rest of the scan is the loop on them. -/
theorem scanEnds_decodeLoop {fuel : Nat} (hd : s.params.headersDistinct = true) (hc : s.calib = some c)
    (hs : s.scan = some sc) (hread : memRead s.inBuf sc.len sc.cursor bytes.length = some bytes)
    (hlen : sc.cursor + bytes.length = sc.len) (hfuel : bytes.length < fuel) :
    ScanEnds s sc (decodeLoop s.params c sc.cap fuel sc.count s.tFine.toInt bytes) (bytes.length + 1) := by
  induction fuel generalizing s sc bytes with
  | zero => omega
  | succ fuel ih =>
    obtain hr | hr := le_or_gt sc.cap sc.count
    · rw [decodeLoop_of_full hr]
      exact .of_endScan (step_of_stops hd hs (.inr (.inl hr)))
    cases unread_cases s.params bytes with
    | none =>
      rw [decodeLoop_nil]
      exact .of_endScan (step_of_stops hd hs (.inl hlen.ge))
    | @cut h rest hcut =>
      rw [decodeLoop_of_cut hcut]
      obtain ⟨hheader, -⟩ := memRead_append (xs := [h]) (ys := rest) |>.mp hread
      exact .of_endScan (step_of_stops hd hs (.inr (.inr ⟨h, hheader, by omega⟩)))
    | @frame i bs rest hi hwf henc =>
      obtain ⟨hframe, hrest⟩ := memRead_append.mp hread
      have hstep := step_of_encode hd hs hr hi hwf henc hframe
      by_cases stop : i = .hdrEmpty ∨ i = .hdrCfgErr
      · rw [decodeLoop_of_stop stop henc]
        exact .of_endScan (hstep.trans (exec_frame_of_effect hi (.stop hs hr stop)))
      · have hfine := toInt_passOutput_tFine s.params c sc.cap sc.count s.tFine i
        obtain ⟨out, hout⟩ : ∃ out, passOutput s.params c sc.cap sc.count s.tFine.toInt i = out := ⟨_, rfl⟩
        rw [decodeLoop_of_pass hd hr hi hwf stop henc hout]
        rw [hout] at hfine
        have hpos := length_pos_of_encode hi henc
        rw [List.length_append] at hlen hfuel ⊢
        obtain e | ⟨full, e⟩ := frameEffect_afterPass hs hr hc hi hwf stop henc hout
        · have later := ih (s := s.afterPass sc bs.length out) hd hc rfl hrest
            ((Nat.add_assoc _ _ _).trans hlen) (by omega)
          rw [show (s.afterPass sc bs.length out).tFine.toInt = out.2 from hfine] at later
          exact .of_pass (hstep.trans (exec_frame_of_effect hi e)) later (by omega)
        · rw [decodeLoop_of_full full, ← hfine]
          exact .of_last_pass (hstep.trans (exec_frame_of_effect hi e))

end Sys2Proof.Machine
end

section
/-! The obligations of 42_fifo.md, settled. -/

namespace Sys2Proof.Machine

/-- Settles O57: the simulation of the decode loop, from cursor 0 and count 0. -/
theorem scanMatchesTheDecodeLoop : Obligations.ScanMatchesTheDecodeLoop := by
  intro s c cap payload hd hc hin hs
  have hread : memRead s.inBuf payload.length 0 payload.length = some payload := by
    simp [hin, memRead_ofList]
  obtain ⟨passes, t, hpasses, hrun, state, frames, tFine⟩ :=
    scanEnds_decodeLoop hd hc hs hread (Nat.zero_add _) (Nat.lt_succ_self _)
  refine ⟨passes, t, hpasses, hrun, by rw [state], ?_, tFine, fun k => ?_⟩
  · rw [state, Nat.zero_add]
    rfl
  · rw [frames]
    exact Memory.read_writeAll_zero _ _ k

/-- Settles O56: in a good state the bytes left can be read and the table is there, so the scan ends as the decode loop
does on them, inside the capacity. -/
theorem scanAlwaysEnds : Obligations.ScanAlwaysEnds := by
  intro s sc hinv hd hs
  have ok := hinv.scan sc hs
  obtain ⟨c, hc⟩ := Option.isSome_iff_exists.mp (hinv.calib ok.inited)
  have hlen : sc.cursor + (sc.len - sc.cursor) = sc.len := Nat.add_sub_cancel' ok.cursor_le
  obtain ⟨bytes, hread⟩ := Option.isSome_iff_exists.mp (ok.memRead_isSome hlen.le)
  rw [← length_of_memRead hread] at hlen hread
  obtain ⟨passes, t, hpasses, hrun, state, frames, -⟩ :=
    scanEnds_decodeLoop hd hc hs hread hlen (Nat.lt_succ_self _)
  refine ⟨passes, t, _, by omega, hrun, Nat.le_add_right _ _, decodeLoop_count_le hd ok.count_le, state,
    fun k => ?_⟩
  rw [frames, Memory.read_writeAll]
  refine ⟨fun outside => if_neg (by omega), fun filled below => ?_⟩
  rw [if_pos ⟨filled, below⟩, List.getElem?_eq_getElem (by omega)]
  rfl

/-- Settles O48: the effects of a stop marker and of a skipped byte. -/
theorem markerAndOtherByteResults : Obligations.MarkerAndOtherByteResults := by
  intro s sc hs hr
  refine ⟨fun i hi => ?_, fun h => exec_frame_of_effect rfl (.skip hs hr (.inl ⟨h, rfl⟩))⟩
  have hframe : i.isCommand = false := by obtain rfl | rfl := hi <;> rfl
  exact exec_frame_of_effect hframe (.stop hs hr hi)

/-- Settles O46: the effects of the three single frames, each one write to the frame array. -/
theorem singleFrameResults : Obligations.SingleFrameResults := by
  intro s sc raw hs hr
  refine ⟨?time, fun c hc => ⟨?temp, ?press⟩⟩
  case time => exact ⟨_, exec_frame_of_effect rfl (.time hs hr), rfl, Memory.read_write_eq _ _ _⟩
  case temp => exact ⟨_, exec_frame_of_effect rfl (.temp hs hr hc), rfl, Memory.read_write_eq _ _ _⟩
  case press => exact ⟨_, exec_frame_of_effect rfl (.press hs hr hc), rfl, Memory.read_write_eq _ _ _⟩

/-- Settles O47: the effects of the combined frame. The pressure is compensated with the fine temperature just
written. -/
theorem combinedFrameResult : Obligations.CombinedFrameResult := by
  intro s sc rawT rawP hs hr
  refine ⟨fun c hc split room => ?pair, fun c hc split last => ?half, fun skip => ?skip⟩
  case pair =>
    refine ⟨_, exec_frame_of_effect rfl (.pair hs hr hc split room), rfl, fun k => ?_⟩
    rw [emitPress, compPNow_emitTemp, State.emit_frames, Memory.read_write_eq]
    by_cases hk : k = sc.count <;> simp [hk, emitTemp, Memory.read_write_eq]
  case half =>
    refine ⟨_, exec_frame_of_effect rfl (.halfPair hs hr hc split last.ge), ?_, Memory.read_write_eq _ _ _⟩
    rw [← last]
    rfl
  case skip => exact exec_frame_of_effect rfl (.skip hs hr (.inr ⟨rawT, rawP, rfl, skip⟩))

/-- Settles O49: every frame is executed on a scan with room, and the fetch looks at the capacity first. -/
theorem framesNeedAScanWithRoom : Obligations.FramesNeedAScanWithRoom := by
  intro s i hi
  refine ⟨exec_frame_of_no_scan hi, fun sc hs hfull => ⟨exec_frame_of_full hi hs hfull, fun hd => ?_⟩⟩
  exact step_of_stops hd hs (.inr (.inl hfull))

/-- Settles O9: the bytes read lie inside the buffer, so the fetch finds the frame. -/
theorem stepRunsTheFrame : Obligations.StepRunsTheFrame := by
  intro s sc h bs i hd hs hr hheader hbs hdec
  obtain ⟨hlt, -⟩ := memRead_eq_some.mp hheader
  obtain ⟨hfits, -⟩ := memRead_eq_some.mp hbs
  exact step_of_nextFrame hd hs ⟨hlt, hr, h, bs, hheader, hfits, hbs, hdec⟩

/-- Settles O50: the four bytes encode the frame of O46. -/
theorem sensorTimeBytes : Obligations.SensorTimeBytes := by
  intro s sc b0 b1 b2 hd hs hr hread
  obtain ⟨⟨t, hexec, hstate, hframes⟩, -⟩ := singleFrameResults s sc (le24 b0 b1 b2) hs hr
  have henc : encode s.params (.hdrTime (le24 b0 b1 b2)) = .frame [s.params.hdrTime, b0, b1, b2] := by
    rw [encode, bytes24_le24]
  exact ⟨t, _, (step_of_encode hd hs hr rfl rfl henc hread).trans hexec, toNat_le24 b0 b1 b2, hstate, hframes⟩

/-- Settles O51: the four bytes encode the frame of O46. -/
theorem temperatureBytes : Obligations.TemperatureBytes := by
  intro s sc c b0 b1 b2 hd hs hr hc hread
  obtain ⟨t, hexec, hstate, hframes⟩ := ((singleFrameResults s sc (le24 b0 b1 b2) hs hr).2 c hc).1
  have henc : encode s.params (.hdrTemp (le24 b0 b1 b2)) = .frame [s.params.hdrTemp, b0, b1, b2] := by
    rw [encode, bytes24_le24]
  exact ⟨t, _, (step_of_encode hd hs hr rfl rfl henc hread).trans hexec, toNat_le24 b0 b1 b2, hstate, hframes⟩

/-- Settles O52: the four bytes encode the frame of O46. -/
theorem pressureBytes : Obligations.PressureBytes := by
  intro s sc c b0 b1 b2 hd hs hr hc hread
  obtain ⟨t, hexec, hstate, hframes⟩ := ((singleFrameResults s sc (le24 b0 b1 b2) hs hr).2 c hc).2
  have henc : encode s.params (.hdrPress (le24 b0 b1 b2)) = .frame [s.params.hdrPress, b0, b1, b2] := by
    rw [encode, bytes24_le24]
  exact ⟨t, _, (step_of_encode hd hs hr rfl rfl henc hread).trans hexec, toNat_le24 b0 b1 b2, hstate, hframes⟩

/-- Settles O53: the one byte encodes the stop marker of O48. -/
theorem stopMarkerBytes : Obligations.StopMarkerBytes := by
  intro s sc h hd hs hr hread hh
  obtain ⟨stops, -⟩ := markerAndOtherByteResults s sc hs hr
  obtain rfl | rfl := hh
  · exact (step_of_encode (bs := [_]) hd hs hr rfl rfl rfl hread).trans (stops .hdrEmpty (.inl rfl))
  · exact (step_of_encode (bs := [_]) hd hs hr rfl rfl rfl hread).trans (stops .hdrCfgErr (.inr rfl))

/-- Settles O54: each of the three kinds of byte is no named header, so it encodes the other byte of O48. -/
theorem otherBytesAdvanceByOne : Obligations.OtherBytesAdvanceByOne := by
  intro s sc h hd hs hr hread hh
  have hwf : (Instr.hdrOther h).wf s.params = true := by
    simpa [Instr.wf] using namedHeader_eq_false_of_other hd hh
  exact (step_of_encode hd hs hr rfl hwf rfl hread).trans ((markerAndOtherByteResults s sc hs hr).2 h)

/-- Settles O55: the header names 4 or 7 bytes, more than are left. -/
theorem cutFramesStop : Obligations.CutFramesStop := by
  intro s sc h hd hs hr hread hcut
  have past : sc.len < sc.cursor + frameLength s.params h := by
    obtain ⟨hh, hlt⟩ | ⟨hh, split, hlt⟩ := hcut
    · rwa [frameLength_of_single hd hh]
    · rwa [hh, frameLength_hdrTempPress hd split]
  exact ⟨step_of_stops hd hs (.inr (.inr ⟨h, hread, past⟩)), fun a n hpast => memRead_of_past_end hpast⟩

/-- Settles O44: the payload is the input buffer the scan reads. -/
theorem fifoParseBeginsTheScan : Obligations.FifoParseBeginsTheScan := by
  intro s cap payload hi
  refine ⟨_, gated_of_inited hi _, rfl, fun a => ?_, fun a n => memRead_ofList⟩
  simp [Memory.read_ofList]

/-- Settles O45: the first step takes the request and begins the scan, which stops at once: there is no byte, or no
room. -/
theorem fifoParseEmptyInputs : Obligations.FifoParseEmptyInputs := by
  intro s cap payload rest hd hi hs hq hlen hempty
  have hdec : decodeRequest (wordC 0x21#8 cap) payload = .ok (.fifoParse cap payload) :=
    commandsDecodeFromTheirEncoding s.params (.fifoParse cap payload) rfl (decide_eq_true hlen)
  have begins : step s = .next ((s.accept rest).beginScan cap.toNat payload) :=
    (stepRunsTheRequest s _ rest _ hd hs hq hdec).trans (gated_of_inited (s := s.accept rest) hi _)
  have stops : ScanStops ((s.accept rest).beginScan cap.toNat payload) ⟨payload.length, cap.toNat, 0, 0⟩ := by
    obtain rfl | rfl := hempty
    · exact .inl le_rfl
    · exact .inr (.inl le_rfl)
  have ends := step_of_stops (s := (s.accept rest).beginScan cap.toNat payload) hd rfl stops
  rw [run_succ_of_step begins, run_succ_of_step ends]
  simp [Host.Core.run, State.endScan, State.beginScan, State.accept, hs, statusOk]

/-- Settles O42: the burst and the empty case of READ_FIFO. -/
theorem readFifoResult : Obligations.ReadFifoResult := by
  intro s cap l0 l1 rest hi
  refine ⟨fun d hb hd hpos hle => ?burst, fun hb hz => ?empty⟩
  case burst =>
    rw [hd] at hpos hle
    have hcap : ¬cap < fifoLength s.params [l0, l1] := Nat.not_lt.mpr hle
    have hz : fifoLength s.params [l0, l1] ≠ 0#16 := fun hz => Nat.ne_of_gt hpos (congrArg BitVec.toNat hz)
    refine ⟨_, exec_readFifo_of_effect (.burst hi hb rfl hcap hz rfl hd), ?_, ?_⟩
    · rw [burstRead_eq, hd]
      rfl
    · rw [burstRead_eq]
      exact Memory.read_writeAll_zero s.outBuf d
  case empty =>
    have hcap : ¬cap < fifoLength s.params [l0, l1] := by
      rw [show fifoLength s.params [l0, l1] = 0#16 from hz]
      exact BitVec.not_lt_zero
    exact exec_readFifo_of_effect (.fifoEmpty hi hb rfl hcap hz)

/-- Settles O43, by the cases of READ_FIFO. -/
theorem readFifoBuffer : Obligations.ReadFifoBuffer := by
  intro s cap l0 l1 rest
  refine ⟨fun hi => ?gate, fun hi hb => ?lengthFails, fun hi hb hsmall => ?tooSmall,
    fun hi hb hpos hle => ?burstFails, fun t len hexec hresponse => ?success, fun t hexec => ?block⟩
  case gate => exact exec_readFifo_of_effect (.gate rfl hi)
  case lengthFails => exact exec_readFifo_of_effect (.fifoLengthFails hi hb)
  case tooSmall => exact exec_readFifo_of_effect (.fifoTooSmall hi hb rfl hsmall)
  case burstFails =>
    have hcap : ¬cap < fifoLength s.params [l0, l1] := Nat.not_lt.mpr hle
    have hz : fifoLength s.params [l0, l1] ≠ 0#16 := fun hz => Nat.ne_of_gt hpos (congrArg BitVec.toNat hz)
    refine ⟨_, exec_readFifo_of_effect (.burstFails hi hb rfl hcap hz rfl), ?_, fun a => ?_⟩
    · rw [burstRead_eq]
      rfl
    · rw [burstRead_eq]
      refine (Memory.read_writeAll_zero s.outBuf _ a).trans ?_
      rw [length_freeBytes]
      split
      · next hin => exact getElem?_freeBytes hin
      · rfl
  case success =>
    obtain ⟨d, hlen, hbus, hout⟩ := (exec_readFifo_next hexec).readFifo_success hresponse
    exact ⟨d, hlen, hbus, fun a => by rw [hout, Memory.read_writeAll_zero]⟩
  case block => exact (exec_readFifo_next hexec).readFifo_block_eq

end Sys2Proof.Machine
end

section
/-! SUPPORT. How a request ends (60_exceptions.md R180, R184): no response yet, a success, or a failure with its status,
no results and what it leaves unchanged. -/

namespace Sys2Proof.Machine

variable {s t : State} {i : Instr} {k : Byte}

/-- The statuses `i` can fail with: those from 4 to 6 are INIT's alone (60_exceptions.md R180). -/
def FailureStatus (i : Instr) (k : Byte) : Prop :=
  k = statusFailed ∨ k = statusNotReady ∨ i = .init ∧ (k = statusIdentity ∨ k = statusReset ∨ k = statusCalib)

theorem FailureStatus.mem_codes (h : FailureStatus i k) : k ∈ [0#8, 1#8, 3#8, 4#8, 5#8, 6#8] := by
  obtain rfl | rfl | ⟨-, rfl | rfl | rfl⟩ := h <;> decide

theorem FailureStatus.eq_init (h : FailureStatus i k) (hk : k ∈ [4#8, 5#8, 6#8]) : i = .init := by
  obtain rfl | rfl | ⟨hi, -⟩ := h
  · exact absurd hk (by decide)
  · exact absurd hk (by decide)
  · exact hi

/-- What a failure of `i` leaves unchanged (60_exceptions.md R184); a failed burst of READ_FIFO spoils the output
buffer (42_fifo.md R153). -/
structure FailureFrame (i : Instr) (s t : State) : Prop where
  inited : t.inited = s.inited
  calib : t.calib = s.calib
  tFine : t.tFine = s.tFine
  scan : t.scan = s.scan
  inBuf : t.inBuf = s.inBuf
  frames : t.frames = s.frames
  output : (∀ cap, i ≠ .readFifo cap) → t.outBuf = s.outBuf ∧ t.draws = s.draws

theorem FailureFrame.of_stored (e : t.stored = s.stored) (draws : t.draws = s.draws) : FailureFrame i s t := by
  simp only [State.stored, Prod.mk.injEq] at e
  obtain ⟨inited, calib, tFine, scan, inBuf, outBuf, frames⟩ := e
  exact ⟨inited, calib, tFine, scan, inBuf, frames, fun _ => ⟨outBuf, draws⟩⟩

/-- The response `i` adds, if any, and for a failure what it leaves unchanged. -/
inductive RequestEnd (i : Instr) (s t : State) : Prop
  | silent (h : t.responses = s.responses)
  | success (r : Results) (h : t.responses = s.responses ++ [⟨statusOk, r⟩])
  | failure (k : Byte) (hk : FailureStatus i k) (h : t.responses = s.responses ++ [⟨k, .none⟩])
      (frame : FailureFrame i s t)

theorem InitEffect.requestEnd (e : InitEffect s t) : RequestEnd .init s t := by
  cases e with
  | notLinked => exact .failure statusNotReady (.inr (.inl rfl)) rfl (.of_stored rfl rfl)
  | openFails => exact .failure statusFailed (.inl rfl) rfl (.of_stored rfl rfl)
  | identity =>
    rw [identified_eq]
    exact .failure statusIdentity (.inr (.inr ⟨rfl, .inl rfl⟩)) rfl (.of_stored rfl rfl)
  | resetFails =>
    rw [resetWritten_eq]
    exact .failure statusReset (.inr (.inr ⟨rfl, .inr (.inl rfl)⟩)) rfl (.of_stored rfl rfl)
  | calibFails =>
    rw [calibRead_eq]
    exact .failure statusCalib (.inr (.inr ⟨rfl, .inr (.inr rfl)⟩)) rfl (.of_stored rfl rfl)
  | success =>
    rw [calibRead_eq]
    exact .success .none rfl

theorem CommandEffect.requestEnd (e : CommandEffect s i t) : RequestEnd i s t := by
  cases e with
  | init e => exact e.requestEnd
  | gate => exact .failure statusNotReady (.inr (.inl rfl)) rfl (.of_stored rfl rfl)
  | fifoParse => exact .silent rfl
  | deinitFails => exact .failure statusFailed (.inl rfl) rfl (.of_stored rfl rfl)
  | compTempFails => exact .failure statusFailed (.inl rfl) rfl (.of_stored rfl rfl)
  | compPressFails => exact .failure statusFailed (.inl rfl) rfl (.of_stored rfl rfl)
  | readTpFails => exact .failure statusFailed (.inl rfl) rfl (.of_stored rfl rfl)
  | readTpPrecond => exact .failure statusFailed (.inl rfl) rfl (.of_stored rfl rfl)
  | fifoLengthFails => exact .failure statusFailed (.inl rfl) rfl (.of_stored rfl rfl)
  | fifoTooSmall => exact .failure statusFailed (.inl rfl) rfl (.of_stored rfl rfl)
  | @burstFails cap =>
    exact .failure statusFailed (.inl rfl) rfl ⟨rfl, rfl, rfl, rfl, rfl, rfl, fun h => absurd rfl (h cap)⟩
  | _ => exact .success _ rfl

/-- A frame never fails: it goes on silently, or the scan's exit answers the count. -/
theorem FrameEffect.requestEnd (e : FrameEffect s i t) : RequestEnd i s t := by
  cases e with
  | full => exact .success _ rfl
  | stop => exact .success _ rfl
  | halfPair => exact .success _ rfl
  | _ => exact .silent rfl

theorem exec_requestEnd (h : exec i s = .next t) : RequestEnd i s t := by
  obtain e | e := exec_next h
  · exact e.requestEnd
  · exact e.requestEnd

/-- A response with a status other than 0 is a failure's. -/
theorem RequestEnd.failureFrame {r : Results} (e : RequestEnd i s t) (h : t.responses = s.responses ++ [⟨k, r⟩])
    (hk : k ≠ 0#8) : FailureFrame i s t := by
  cases e with
  | silent h' => exact absurd (h'.symm.trans h) (by simp)
  | success r' h' =>
    obtain ⟨rfl, -⟩ : statusOk = k ∧ r' = r := by simpa using h'.symm.trans h
    exact absurd rfl hk
  | failure _ _ _ frame => exact frame

end Sys2Proof.Machine
end

section
/-! SUPPORT. The initialised bit has no part in what INIT and DEINIT answer, and the gated operations look at it first
(60_exceptions.md R182). -/

namespace Sys2Proof.Machine

variable {s t : State} {i : Instr}

/-- The outputs and the table INIT and DEINIT give, whatever they make of the initialised bit. -/
def SameAnswer (t' t : State) : Prop :=
  t'.responses = t.responses ∧ t'.trace = t.trace ∧ t'.calib = t.calib

theorem InitEffect.with_inited (e : InitEffect s t) (b : Bool) :
    ∃ t', InitEffect { s with inited := b } t' ∧ SameAnswer t' t := by
  cases e with
  | notLinked hl => exact ⟨_, .notLinked hl, rfl, rfl, rfl⟩
  | openFails hl h1 => exact ⟨_, .openFails hl h1, rfl, rfl, rfl⟩
  | identity hl h1 h2 hx h3 => exact ⟨_, .identity hl h1 h2 hx h3, rfl, rfl, rfl⟩
  | resetFails hl h1 h2 h3 h4 => exact ⟨_, .resetFails hl h1 h2 h3 h4, rfl, rfl, rfl⟩
  | calibFails hl h1 h2 h3 h4 h5 => exact ⟨_, .calibFails hl h1 h2 h3 h4 h5, rfl, rfl, rfl⟩
  | success hl h1 h2 h3 h4 hc => exact ⟨_, .success hl h1 h2 h3 h4 hc, rfl, rfl, rfl⟩

theorem exec_deinit_with_inited (h : exec .deinit s = .next t) (b : Bool) :
    ∃ t', exec .deinit { s with inited := b } = .next t' ∧ SameAnswer t' t := by
  cases exec_command_next rfl h with
  | deinit hb => exact ⟨_, (deinitEffect { s with inited := b } _).1 hb, rfl, rfl, rfl⟩
  | deinitFails hb => exact ⟨_, (deinitEffect { s with inited := b } _).2 hb, rfl, rfl, rfl⟩
  | gate hi => cases hi

theorem exec_of_not_inited (hi : gatedOp i = true) (h : s.inited = false) :
    exec i s = .next (s.respond statusNotReady .none) := by
  cases i <;> cases hi <;> exact gated_of_not_inited h _

end Sys2Proof.Machine
end

section
/-! SUPPORT. A bus with no answer to come stops each transaction (60_exceptions.md R196), and so INIT at each of its
stages (40_init_calibration.md R100) and READ_FIFO at its burst (42_fifo.md R150). -/

namespace Sys2Proof.Machine

variable {s : State}

theorem busDo_of_no_answer (h : s.bus = []) (ev : BusEvent) (body : Bool → State → Result) :
    busDo ev s body = .fault .busNeverAnswers :=
  transact_of_no_answer h ev _

theorem busRead_of_no_answer (h : s.bus = []) (reg : Byte) (n : Nat) (body : Option (List Byte) → State → Result) :
    busRead reg n s body = .fault .busNeverAnswers :=
  transact_of_no_answer h _ _

theorem closeAndRaise_of_no_answer (h : s.bus = []) (k : Byte) : closeAndRaise k s = .fault .busNeverAnswers :=
  busDo_of_no_answer h _ _

theorem exec_init_of_no_answer (hl : s.params.linked = true) (h : s.bus = []) :
    exec .init s = .fault .busNeverAnswers :=
  (if_pos hl).trans (busDo_of_no_answer h _ _)

theorem exec_init_of_unanswered_read (hl : s.params.linked = true) (h : s.bus = [.ok]) :
    exec .init s = .fault .busNeverAnswers := by
  change execInit s = _
  rw [execInit, if_pos hl, busDo_of_ok h, if_pos rfl, busRead_of_no_answer rfl]

/-- The close after an identity read that failed or gave another chip. -/
theorem exec_init_of_unanswered_identity {x : BusAnswer} (hl : s.params.linked = true)
    (hx : x = .ioError ∨ ∃ b, b ≠ s.params.chipId ∧ x = .bytes [b]) (h : s.bus = [.ok, x]) :
    exec .init s = .fault .busNeverAnswers := by
  change execInit s = _
  rw [execInit, if_pos hl, busDo_of_ok h, if_pos rfl]
  obtain rfl | ⟨b, hb, rfl⟩ := hx
  · rw [busRead_of_ioError (rest := []) (by simp), if_neg (by simp)]
    exact closeAndRaise_of_no_answer rfl _
  · rw [busRead_of_bytes (bs := [b]) (rest := []) (by simp) (by simp), if_neg (by simpa using hb)]
    exact closeAndRaise_of_no_answer rfl _

/-- The transactions after the chip is identified: the reset write, the calibration read, and the close after either
of them failed. -/
theorem exec_init_of_unanswered_setup {rest : List BusAnswer} (hl : s.params.linked = true)
    (h : s.bus = .ok :: .bytes [s.params.chipId] :: rest)
    (hrest : rest = [] ∨ rest = [.ioError] ∨ rest = [.ok] ∨ rest = [.ok, .ioError]) :
    exec .init s = .fault .busNeverAnswers := by
  change execInit s = _
  rw [execInit, if_pos hl, busDo_of_ok h, if_pos rfl,
    busRead_of_bytes (bs := [s.params.chipId]) (rest := rest) (by simp) (by simp), if_pos (by simp)]
  obtain rfl | rfl | rfl | rfl := hrest
  · exact busDo_of_no_answer rfl _ _
  · rw [busDo_of_ioError (rest := []) (by simp)]
    exact closeAndRaise_of_no_answer rfl _
  · rw [busDo_of_ok (rest := []) (by simp), if_pos rfl]
    exact busRead_of_no_answer rfl _ _ _
  · rw [busDo_of_ok (rest := [.ioError]) (by simp), if_pos rfl, busRead_of_ioError (rest := []) (by simp)]
    exact closeAndRaise_of_no_answer rfl _

theorem exec_readFifo_of_unanswered_burst {cap : Word16} {l : List Byte} (hi : s.inited = true)
    (h : s.bus = [.bytes l]) (hl : l.length = 2) (hcap : ¬cap < fifoLength s.params l)
    (hz : fifoLength s.params l ≠ 0#16) : exec (.readFifo cap) s = .fault .busNeverAnswers := by
  change execReadFifo cap s = _
  rw [execReadFifo, gated_of_inited hi, busRead_of_bytes h hl]
  exact (if_neg hcap).trans ((if_neg hz).trans (busRead_of_no_answer (s := lengthRead s []) rfl _ _ _))

end Sys2Proof.Machine
end

section
/-! The obligations of 60_exceptions.md, settled. -/

namespace Sys2Proof.Machine

/-- Settles O20: the gate is each operation's first test, and INIT and DEINIT take the same case whatever the bit. -/
theorem uninitialisedGate : Obligations.UninitialisedGate := by
  refine ⟨fun s i hs hop => ?gated, fun s t i b hi hexec => ?ungated⟩
  case gated =>
    refine exec_of_not_inited ?_ hs
    obtain ⟨_, rfl⟩ | ⟨_, rfl⟩ | rfl | ⟨_, rfl⟩ | ⟨_, _, rfl⟩ := hop <;> rfl
  case ungated =>
    obtain rfl | rfl := hi
    · obtain ⟨t', e, same⟩ := (exec_init_next hexec).with_inited b
      exact ⟨t', exec_init_of_effect e, same⟩
    · exact exec_deinit_with_inited hexec b

/-- Settles O21, by the way the request ends. -/
theorem statusCodes : Obligations.StatusCodes := by
  intro i s t hexec
  cases exec_requestEnd hexec with
  | silent response => exact .inl response
  | success r response =>
    exact .inr ⟨statusOk, r, response, by decide, fun h => absurd rfl h, fun h => absurd h (by decide)⟩
  | failure k status response => exact .inr ⟨k, .none, response, status.mem_codes, fun _ => rfl, status.eq_init⟩

/-- Settles O22: only a failure answers such a status, and every failure has its frame. -/
theorem failuresLeaveTheState : Obligations.FailuresLeaveTheState := by
  intro i s t k r hexec response hk
  obtain ⟨inited, calib, tFine, scan, inBuf, frames, output⟩ := (exec_requestEnd hexec).failureFrame response hk
  exact ⟨inited, calib, tFine, scan, inBuf, frames, output⟩

/-- Settles O24, by the transaction left without an answer. -/
theorem unansweredBusIsStuck : Obligations.UnansweredBusIsStuck := by
  intro s
  refine ⟨fun hb => ?deinit, fun x hx hl hb => ?init, fun hi hb => ?first, fun cap l0 l1 hi hb hpos hle => ?burst⟩
  case deinit => simp only [exec, execDeinit, busDo_of_no_answer hb]
  case init =>
    simp only [List.mem_cons, List.not_mem_nil, or_false] at hb
    obtain hb | hb | hb | hb | hb | hb | hb := hb
    · exact exec_init_of_no_answer hl hb
    · exact exec_init_of_unanswered_read hl hb
    · exact exec_init_of_unanswered_identity hl hx hb
    · exact exec_init_of_unanswered_setup hl hb (.inl rfl)
    · exact exec_init_of_unanswered_setup hl hb (.inr (.inl rfl))
    · exact exec_init_of_unanswered_setup hl hb (.inr (.inr (.inl rfl)))
    · exact exec_init_of_unanswered_setup hl hb (.inr (.inr (.inr rfl)))
  case first =>
    exact ⟨(gated_of_inited hi _).trans (busRead_of_no_answer hb _ _ _),
      fun cap => (gated_of_inited hi _).trans (busRead_of_no_answer hb _ _ _)⟩
  case burst =>
    have hcap : ¬cap < fifoLength s.params [l0, l1] := Nat.not_lt.mpr hle
    have hz : fifoLength s.params [l0, l1] ≠ 0#16 := fun hz => Nat.ne_of_gt hpos (congrArg BitVec.toNat hz)
    exact exec_readFifo_of_unanswered_burst hi hb rfl hcap hz

end Sys2Proof.Machine
end

section
/-! SUPPORT. The fetch with nothing to run: an empty queue settles with the state unchanged (70_reset_and_hazards.md
R200). -/

namespace Sys2Proof.Machine

variable {s t : State}

theorem fetchRequest_of_no_request (hr : s.requests = []) : fetchRequest s = .settled s := by
  simp [fetchRequest, hr]

theorem step_of_fetch_settled (h : fetch s = .settled t) : step s = .next t := by
  simp [step, h]

end Sys2Proof.Machine
end

section
/-! The obligation of 70_reset_and_hazards.md, settled. -/

namespace Sys2Proof.Machine

/-- Settles O10: with no scan the fetch looks at the queue, and an empty queue leaves it nothing to run. -/
theorem waitsForTheNextRequest : Obligations.WaitsForTheNextRequest := by
  intro s hd hs hr
  exact step_of_fetch_settled ((fetch_of_no_scan hd hs).trans (fetchRequest_of_no_request hr))

end Sys2Proof.Machine
end
